-- ==== Sys2Proof/Word.lean ====
section
/-!
DEFINITION. The word of the block: W = 16 bits (00_scope.md R5, R7). Every buffer entry and everything sent on the
wire is one such word; all words are unsigned. `w[15]` is the most significant bit, `w[0]` the least.
-/

namespace Sys2Proof

/-- A word: one entry of the chain buffer, the command word, what one SEND_WORD serializes (00_scope.md R5, R7). -/
abbrev Word := BitVec 16

/-- The level of a line: `true` is 1 (high), `false` is 0 (low) (00_scope.md R7). -/
abbrev Level := Bool

end Sys2Proof
end

