-- ==== Sys2Proof/Config.lean ====
section
/-!
DEFINITION. The parameters of the block (00_scope.md R5, 10_state.md R26) and its free values. A parameter the spec
leaves without a value is a constant WITHOUT A BODY: nothing in Lean can evaluate it. The two parameters that decide
what an operation stores (CMD_LAYOUT, FP_FORMAT) are an argument of the model: the type `Params`, a value of which a state
holds from its construction on (log 28); their defaults stand in Machine/Params.lean.
-/

namespace Sys2Proof

/-- The range of bits `[lo + width - 1 : lo]` that a field of the command word occupies (10_state.md R15, R16). -/
structure BitRange where
  lo    : Nat
  width : Nat
deriving DecidableEq, Repr

/-- What CMD_LAYOUT says of one field: its bit range, and its code table, the code of each setting in the order in which 10_state.md
R15 lists the settings. -/
structure FieldLayout where
  range : BitRange
  codes : List Nat
deriving DecidableEq, Repr

/-- CMD_LAYOUT: the bit range and the code table of each of the eight fields of the command word (00_scope.md R5, 10_state.md R15). -/
structure Layout where
  slew    : FieldLayout
  depth   : FieldLayout
  div     : FieldLayout
  wave    : FieldLayout
  clksrc  : FieldLayout
  pol     : FieldLayout
  cntrst  : FieldLayout
  oneshot : FieldLayout
deriving DecidableEq, Repr

/-- FP_FORMAT: a binary floating-point format of IEEE 754, by the widths of its exponent and fraction fields (00_scope.md R5,
43_data_assign.md R128). -/
structure FpFormat where
  expBits  : Nat
  fracBits : Nat
deriving DecidableEq, Repr

/-- The width of a value of the format: sign, exponent, fraction (30_encoding.md R57). -/
abbrev FpFormat.width (f : FpFormat) : Nat := 1 + f.expBits + f.fracBits

/-- The parameters of the step relation that decide what an operation stores (00_scope.md R5, 10_state.md R26). Log 28. -/
structure Params where
  /-- CMD_LAYOUT. -/
  layout : Layout
  /-- FP_FORMAT. -/
  format : FpFormat
deriving DecidableEq, Repr

namespace Config

/-- N_MAX less one. N_MAX is OPEN, `N_MAX ≥ 1`, with no value in the source (00_scope.md R5, 91 N3): no body. Log 2. -/
opaque nMaxPred : Nat

/-- N_MAX, the bound of the preallocated chain buffer (00_scope.md R5, 10_state.md R18): some number from 1 up. -/
def nMax : Nat := nMaxPred + 1

/-- T_SETTLE, the settling delay after every pin write (00_scope.md R5, 70 R166): OPEN, no body; no rule depends on its
value (R176). Log 7. -/
opaque tSettle : Nat

/-- T_PRELATCH, the wait between the last word and the latch sequence (41_refresh.md R102): OPEN, no body; no rule depends
on its value (R176). Log 7. -/
opaque tPrelatch : Nat

/-- The values `draw_16()` supplies (10_state.md R26, 42 R114, 43 R127): `freeWord i` is the i-th draw, an unspecified
16-bit value. It has no body, so a statement that mentions it holds for every value. Log 6. -/
opaque freeWord : Nat → Word

end Config

end Sys2Proof
end

