-- ==== Sys2Proof/Syntax.lean ====
section
/-!
DEFINITION. The operations of the block (30_encoding.md R50): the five host operations and the two internal
micro-operations, one constructor per row of spec/opcode_table.json, with their operands as data, and the two forms
in which an operation is named (a host request, R51; a sequencer phase code, R65).
-/

namespace Sys2Proof

/-- The eight enumerator codes of CMD_SET, 8-bit unsigned each, in the order of the request (30_encoding.md R55). -/
structure CmdCodes where
  slew    : BitVec 8
  depth   : BitVec 8
  div     : BitVec 8
  wave    : BitVec 8
  clksrc  : BitVec 8
  pol     : BitVec 8
  cntrst  : BitVec 8
  oneshot : BitVec 8
deriving DecidableEq, Repr

/-- Twelve values of one slot in the fixed channel order of 10_state.md R14: group 3 A, B, C; group 2 A, B, C; group 1
A, B, C; group 0 A, B, C. The i-th field is channel index k = i. -/
structure Channels (α : Type) where
  g3a : α
  g3b : α
  g3c : α
  g2a : α
  g2b : α
  g2c : α
  g1a : α
  g1b : α
  g1c : α
  g0a : α
  g0b : α
  g0c : α
deriving DecidableEq, Repr

/-- The twelve operands of DATA_SET: bit patterns of a floating-point format (30_encoding.md R57). -/
structure Values where
  format : FpFormat
  vals   : Channels (BitVec format.width)
deriving DecidableEq, Repr

/-- The operations (30_encoding.md R50). An index is the integer the request's signed field holds (R58). -/
inductive Instr where
  /-- CMD_RAW_SET word (42_command_config.md R110). -/
  | cmdRawSet (word : Word)
  /-- CMD_SET with eight enumerator codes (42_command_config.md R112). -/
  | cmdSet (codes : CmdCodes)
  /-- DATA_RAW_SET idx; mag_0 … mag_11 (43_data_assign.md R120). -/
  | dataRawSet (idx : Int) (mags : Channels Word)
  /-- DATA_SET idx; val_0 … val_11, FP_FORMAT values (43_data_assign.md R124). -/
  | dataSet (idx : Int) (vals : Values)
  /-- REFRESH (41_refresh.md R100). -/
  | refresh
  /-- SEND_WORD, internal (40_transmit_primitives.md R80). -/
  | sendWord
  /-- LATCH, internal (40_transmit_primitives.md R87). -/
  | latch
deriving DecidableEq, Repr

/-- A host request: one bit vector `req[len-1:0]` of any length, presented whole (30_encoding.md R51). -/
structure Request where
  len  : Nat
  bits : BitVec len
deriving DecidableEq, Repr

/-- How an operation is named in bits: on the host side by a request vector (30_encoding.md R51), inside the sequencer by
its 2-bit phase code (30_encoding.md R65). -/
inductive Code where
  | request (r : Request)
  | phase (p : BitVec 2)
deriving DecidableEq, Repr

end Sys2Proof
end

