-- ==== Sys2Proof/WellFormed.lean ====
section
/-!
DEFINITION. When an instruction is well-formed: its index is one that the 32-bit two's-complement field of a request
can hold (30_encoding.md R56 to R58). Every other operand has its field's width by its type, and within an op every
pattern of operand bits is accepted (30_encoding.md R59), so nothing else is checked.
-/

namespace Sys2Proof

/-- The range of `idx` in a request: `−2^31 .. 2^31 − 1` (30_encoding.md R58). -/
def idxInField (idx : Int) : Bool :=
  decide (-2147483648 ≤ idx) && decide (idx < 2147483648)

/-- The check of an instruction. -/
def Instr.wellFormed : Instr → Bool
  | .cmdRawSet _ => true
  | .cmdSet _ => true
  | .dataRawSet idx _ => idxInField idx
  | .dataSet idx _ => idxInField idx
  | .refresh => true
  | .sendWord => true
  | .latch => true

/-- Whether an instruction is one of a block whose FP_FORMAT is `f`: the values of DATA_SET are values of that format
(30_encoding.md R57). No other operation depends on it. -/
def Instr.ofFormat (f : FpFormat) : Instr → Bool
  | .cmdRawSet _ => true
  | .cmdSet _ => true
  | .dataRawSet _ _ => true
  | .dataSet _ vals => decide (vals.format = f)
  | .refresh => true
  | .sendWord => true
  | .latch => true

/-- An instruction that has an encoding. -/
abbrev Instr.WellFormed (i : Instr) : Prop := i.wellFormed = true

end Sys2Proof
end

