-- ==== Sys2Proof/Decode.lean ====
section
/-!
DEFINITION. Decoding and encoding (30_encoding.md R51 to R60, R65). The decoder is total: it takes a bit vector of ANY
length and answers an instruction or a rejection by name. The encoder is written from the same tables.
-/

namespace Sys2Proof

/-- Why a bit vector names no operation. -/
inductive DecodeError where
  /-- `op` is 000, 110 or 111 (30_encoding.md R59). -/
  | reservedOp (op : BitVec 3)
  /-- The vector is longer or shorter than the `L` of its op's format, so it is no request (30_encoding.md R59). -/
  | wrongLength (op : BitVec 3) (len : Nat)
  /-- The phase code is 00 or 11: no micro-operation runs under it (30_encoding.md R65). -/
  | noMicroOperation (phase : BitVec 2)
deriving DecidableEq, Repr

/-! ### Twelve operands in channel order -/

/-- The twelve values `f 0 … f 11` as the channels of 10_state.md R14. -/
def Channels.ofIndex {α : Type} (f : Nat → α) : Channels α where
  g3a := f 0
  g3b := f 1
  g3c := f 2
  g2a := f 3
  g2b := f 4
  g2c := f 5
  g1a := f 6
  g1b := f 7
  g1c := f 8
  g0a := f 9
  g0b := f 10
  g0c := f 11

/-- The twelve values in ascending channel index (10_state.md R14). -/
def Channels.toList {α : Type} (c : Channels α) : List α :=
  [c.g3a, c.g3b, c.g3c, c.g2a, c.g2b, c.g2c, c.g1a, c.g1b, c.g1c, c.g0a, c.g0b, c.g0c]

/-- The bit patterns of the values in ascending channel index, as numbers. -/
def Values.patterns (v : Values) : List Nat := v.vals.toList.map BitVec.toNat

/-! ### The two formats the spec names -/

/-- binary32: sign bit 31, exponent bits 30:23, fraction bits 22:0 (30_encoding.md R57). -/
def binary32 : FpFormat := ⟨8, 23⟩

/-- binary64, the other format the spec speaks of (30_encoding.md R57, 43_data_assign.md R128). -/
def binary64 : FpFormat := ⟨11, 52⟩

/-! ### Host requests -/

/-- `req[2:0]`, the operation code (30_encoding.md R51). -/
def opOf (r : Request) : BitVec 3 := r.bits.extractLsb' 0 3

/-- The operands of format RF (30_encoding.md R55). -/
def codesOf (r : Request) : CmdCodes where
  slew    := r.bits.extractLsb' 3 8
  depth   := r.bits.extractLsb' 11 8
  div     := r.bits.extractLsb' 19 8
  wave    := r.bits.extractLsb' 27 8
  clksrc  := r.bits.extractLsb' 35 8
  pol     := r.bits.extractLsb' 43 8
  cntrst  := r.bits.extractLsb' 51 8
  oneshot := r.bits.extractLsb' 59 8

/-- The field `idx` of formats RD and RN, `req[34:3]`, read as a signed integer (30_encoding.md R56 to R58). -/
def idxOf (r : Request) : Int := (r.bits.extractLsb' 3 32).toInt

/-- The magnitudes of format RD: `mag_k` is `req[50+16·k : 35+16·k]` (30_encoding.md R56). -/
def magsOf (r : Request) : Channels Word :=
  Channels.ofIndex fun k => r.bits.extractLsb' (35 + 16 * k) 16

/-- The values of format RN: `val_k` is the field of the format's width at `35 + width·k`, so `req[66+32·k : 35+32·k]` in binary32 and
`req[98+64·k : 35+64·k]` in binary64 (30_encoding.md R57). -/
def valsOf (f : FpFormat) (r : Request) : Values where
  format := f
  vals   := Channels.ofIndex fun k => r.bits.extractLsb' (35 + f.width * k) f.width

/-- The length of format RN: 419 in binary32, 803 in binary64 (30_encoding.md R57). -/
def valsLength (f : FpFormat) : Nat := 35 + 12 * f.width

/-- Answers `i` if the vector has the length `want` of its op's format, else rejects it (30_encoding.md R59, R60). -/
def ifLength (r : Request) (want : Nat) (i : Instr) : Except DecodeError Instr :=
  if r.len = want then .ok i else .error (.wrongLength (opOf r) r.len)

/-- The operation a host request names to a block whose FP_FORMAT is `f`: `req[2:0]` chooses the format and its length
(30_encoding.md R52, R60). -/
def decodeRequest (f : FpFormat) (r : Request) : Except DecodeError Instr :=
  match (opOf r).toNat with
  | 1 => ifLength r 19 (.cmdRawSet (r.bits.extractLsb' 3 16))
  | 2 => ifLength r 67 (.cmdSet (codesOf r))
  | 3 => ifLength r 227 (.dataRawSet (idxOf r) (magsOf r))
  | 4 => ifLength r (valsLength f) (.dataSet (idxOf r) (valsOf f r))
  | 5 => ifLength r 3 .refresh
  | _ => .error (.reservedOp (opOf r))

/-! ### Sequencer phase codes -/

/-- The micro-operation that runs under a phase code (30_encoding.md R65): 01 SEND_WORD, 10 LATCH; 00 none; 11 unused. -/
def decodePhase (p : BitVec 2) : Except DecodeError Instr :=
  match p.toNat with
  | 1 => .ok .sendWord
  | 2 => .ok .latch
  | _ => .error (.noMicroOperation p)

/-- The decoder of a block whose FP_FORMAT is `f`. -/
def decode (f : FpFormat) : Code → Except DecodeError Instr
  | .request r => decodeRequest f r
  | .phase c => decodePhase c

/-! ### The encoder -/

/-- A request vector of format RF, the first operand lowest (30_encoding.md R55). -/
def encodeCodes (c : CmdCodes) : BitVec 67 :=
  c.oneshot ++ c.cntrst ++ c.pol ++ c.clksrc ++ c.wave ++ c.div ++ c.depth ++ c.slew ++ 2#3

/-- A request vector of format RD, `mag_0` lowest above `idx` (30_encoding.md R56). -/
def encodeMags (idx : Int) (m : Channels Word) : BitVec 227 :=
  m.g0c ++ m.g0b ++ m.g0a ++ m.g1c ++ m.g1b ++ m.g1a ++ m.g2c ++ m.g2b ++ m.g2a ++ m.g3c ++ m.g3b ++ m.g3a
    ++ BitVec.ofInt 32 idx ++ 3#3

/-- A request vector of format RN, `val_0` lowest above `idx` (30_encoding.md R57). -/
def encodeVals (idx : Int) (v : Values) : Request where
  len  := _
  bits := v.vals.g0c ++ v.vals.g0b ++ v.vals.g0a ++ v.vals.g1c ++ v.vals.g1b ++ v.vals.g1a ++ v.vals.g2c ++ v.vals.g2b
    ++ v.vals.g2a ++ v.vals.g3c ++ v.vals.g3b ++ v.vals.g3a ++ BitVec.ofInt 32 idx ++ 4#3

/-- How an instruction is named in bits: a request for the host operations (30_encoding.md R52 to R57), a phase code for the
two micro-operations (30_encoding.md R65). -/
def encode : Instr → Code
  | .cmdRawSet word => .request ⟨19, word ++ 1#3⟩
  | .cmdSet codes => .request ⟨67, encodeCodes codes⟩
  | .dataRawSet idx mags => .request ⟨227, encodeMags idx mags⟩
  | .dataSet idx vals => .request (encodeVals idx vals)
  | .refresh => .request ⟨3, 5#3⟩
  | .sendWord => .phase 1#2
  | .latch => .phase 2#2

/-! ### Instructions as spec/opcode_table.json numbers their bits -/

/-- The length in bits of the table's row from its length in whole bytes: 19, 67, 227 and 419 bits fill 3, 9, 29 and 53
bytes, and the binary64 form of DATA_SET, which the table does not list, 101; of the rows that fill one byte, the phase
codes 01 and 10 have 2 bits, a request has 3. Log 18. -/
def tableLength (nbits w : Nat) : Nat :=
  match (nbits + 7) / 8 with
  | 1 => if w = 1 ∨ w = 2 then 2 else 3
  | 3 => 19
  | 9 => 67
  | 29 => 227
  | 53 => 419
  | 101 => 803
  | _ => nbits

/-- The code whose bits are `w`, bit 0 the least significant: a 2-bit vector is a phase code (no request has that length),
every other a request. `none` if `w` has a bit outside the vector. -/
def tableCode (nbits w : Nat) : Option Code :=
  if w >>> tableLength nbits w = 0 then
    if tableLength nbits w = 2 then some (.phase (BitVec.ofNat 2 w))
    else some (.request ⟨tableLength nbits w, BitVec.ofNat _ w⟩)
  else none

/-- The FP_FORMAT under which a row of the table is read: the default, but for the binary64 form of DATA_SET. Log 18. -/
def tableFormat (nbits : Nat) : FpFormat :=
  match (nbits + 7) / 8 with
  | 101 => binary64
  | _ => binary32

/-- The instruction the decoder reads from an instruction whose bits are `w` as the opcode table numbers them. -/
def decodeTableWord (nbits w : Nat) : Option Instr :=
  match tableCode nbits w with
  | some c => (decode (tableFormat nbits) c).toOption
  | none => none

end Sys2Proof
end

