-- ==== Sys2Proof/Machine/Fp.lean ====
section
/-!
DEFINITION. The floating-point arithmetic of DATA_SET (43_data_assign.md R123, R126 to R128): a value of a binary IEEE 754
format, its product with an unsigned integer rounded to nearest, ties to even, and truncation toward zero. Generic in
the format, as FP_FORMAT is a parameter. Everything is computed exactly in Nat and Int and narrowed once.
-/

namespace Sys2Proof.Machine

/-- A floating-point value. `finite neg mant exp` is `(−1)^neg · mant · 2^exp`. -/
inductive Fp where
  | nan
  | inf (neg : Bool)
  | finite (neg : Bool) (mant : Nat) (exp : Int)
deriving DecidableEq, Repr

/-- The exponent bias of a format. -/
def fpBias (f : FpFormat) : Int := 2 ^ (f.expBits - 1) - 1

/-- The exponent of the last fraction bit of the smallest numbers of a format. -/
def fpMinExp (f : FpFormat) : Int := 1 - fpBias f - f.fracBits

/-- The value a bit pattern stands for (30_encoding.md R57, R58: every pattern is allowed). -/
def fpOfBits (f : FpFormat) (b : Nat) : Fp :=
  let frac := b % 2 ^ f.fracBits
  let e := b / 2 ^ f.fracBits % 2 ^ f.expBits
  let neg := decide (b / 2 ^ (f.fracBits + f.expBits) % 2 = 1)
  if e = 2 ^ f.expBits - 1 then
    if frac = 0 then .inf neg else .nan
  else if e = 0 then .finite neg frac (fpMinExp f)
  else .finite neg (2 ^ f.fracBits + frac) (fpMinExp f + e - 1)

/-- `m / 2^k` rounded to the nearest integer, a tie to the even one. -/
def roundShift (m k : Nat) : Nat :=
  let q := m / 2 ^ k
  let r := m % 2 ^ k
  if 2 ^ k < 2 * r ∨ (2 * r = 2 ^ k ∧ q % 2 = 1) then q + 1 else q

/-- How many low bits of `mant` a format has no room for: those beyond its precision, and those below its smallest exponent. -/
def excessBits (f : FpFormat) (mant : Nat) (exp : Int) : Nat :=
  max (Nat.log2 mant - f.fracBits) (fpMinExp f - exp).toNat

/-- The exact value `(−1)^neg · mant · 2^exp` rounded to the format, to nearest, ties to even; infinite if the rounded value has
no room in the format (43_data_assign.md R126). -/
def fpRound (f : FpFormat) (neg : Bool) (mant : Nat) (exp : Int) : Fp :=
  let k := excessBits f mant exp
  let q := roundShift mant k
  let e := exp + k
  if q ≠ 0 ∧ fpBias f < Nat.log2 q + e then .inf neg else .finite neg q e

/-- `fmul(x, b)` for a positive integer `b` that the format represents exactly (43_data_assign.md R126). -/
def fpMulNat (f : FpFormat) (x : Fp) (b : Nat) : Fp :=
  match x with
  | .nan => .nan
  | .inf neg => .inf neg
  | .finite neg mant exp => fpRound f neg (mant * b) exp

/-- The integer part of `mant · 2^exp`. -/
def truncMagnitude (mant : Nat) (exp : Int) : Nat :=
  match exp with
  | .ofNat k => mant * 2 ^ k
  | .negSucc k => mant / 2 ^ (k + 1)

/-- `trunc(p)` as a 16-bit unsigned value if `p` is finite and `−1 < p < 65536` (43_data_assign.md R126); none in the
unspecified case of R127. -/
def fpTrunc16 (p : Fp) : Option Word :=
  match p with
  | .nan => none
  | .inf _ => none
  | .finite neg mant exp =>
    let t := truncMagnitude mant exp
    if (neg = true ∧ t = 0) ∨ (neg = false ∧ t < 65536) then some (BitVec.ofNat 16 t) else none

/-! ### Values as rational numbers: what the arithmetic above is measured against -/

/-- `mant · 2^exp`. -/
def magnitude (mant : Nat) (exp : Int) : ℚ := (mant : ℚ) * (2 : ℚ) ^ exp

/-- The number a floating-point value stands for, if it is finite. -/
def fpValue : Fp → Option ℚ
  | .nan => none
  | .inf _ => none
  | .finite neg mant exp => some (if neg then - magnitude mant exp else magnitude mant exp)

/-- `trunc(x)`: the integer part, rounding toward zero (00_scope.md section 5.1). -/
def truncToward (x : ℚ) : Int := if 0 ≤ x then ⌊x⌋ else ⌈x⌉

/-- The magnitudes a format can hold, its upper limit apart: at most `fracBits + 1` significant bits, no exponent below the
smallest. -/
def representable (f : FpFormat) (x : ℚ) : Prop :=
  ∃ (mant : Nat) (exp : Int), mant < 2 ^ (f.fracBits + 1) ∧ fpMinExp f ≤ exp ∧ x = magnitude mant exp

/-- The magnitude has an even significand in the format: the significand of `fracBits + 1` bits, or, below the normal numbers, the one
at the smallest exponent. -/
def evenSignificand (f : FpFormat) (x : ℚ) : Prop :=
  ∃ (mant : Nat) (exp : Int), mant < 2 ^ (f.fracBits + 1) ∧ fpMinExp f ≤ exp ∧
    (2 ^ f.fracBits ≤ mant ∨ exp = fpMinExp f) ∧ mant % 2 = 0 ∧ x = magnitude mant exp

/-- The number `y` is `x` rounded to the format to nearest, ties to even, the upper limit of the format apart (43_data_assign.md
R126): no number of the format is nearer, and if another is as near, `y` has the even significand. -/
def roundsTo (f : FpFormat) (x y : ℚ) : Prop :=
  representable f |y| ∧ (∀ z, representable f |z| → |y - x| ≤ |z - x|) ∧
    (∀ z, representable f |z| → z ≠ y → |z - x| = |y - x| → evenSignificand f |y|)

end Sys2Proof.Machine
end

