-- ==== Sys2Proof/Machine/Params.lean ====
section
/-!
DEFINITION. The defaults of the two parameters that are an argument of the model, CMD_LAYOUT and FP_FORMAT (00_scope.md R5).
-/

namespace Sys2Proof.Machine

/-- The default CMD_LAYOUT of 10_state.md R15: SLEW[10] DEPTH[9:8] DIV[7:5] WAVE[4] CLKSRC[3] POL[2] CNTRST[1] ONESHOT[0], and the codes
of each field's settings ascending from 0. The spec marks positions and codes as general knowledge, not in the source (D4, D5,
G1, G2): PRESUMED, unsafe, log 3, log 4. -/
def cmdLayout : Layout where
  slew    := ⟨⟨10, 1⟩, [0, 1]⟩
  depth   := ⟨⟨8, 2⟩, [0, 1, 2, 3]⟩
  div     := ⟨⟨5, 3⟩, [0, 1, 2, 3, 4, 5, 6, 7]⟩
  wave    := ⟨⟨4, 1⟩, [0, 1]⟩
  clksrc  := ⟨⟨3, 1⟩, [0, 1]⟩
  pol     := ⟨⟨2, 1⟩, [0, 1]⟩
  cntrst  := ⟨⟨1, 1⟩, [0, 1]⟩
  oneshot := ⟨⟨0, 1⟩, [0, 1]⟩

/-- The default parameters: the layout of 10_state.md R15 and binary32 (43_data_assign.md R128; DESIGN CHOICE, unsafe, log 5). Only
State.reset takes them; every other definition takes the parameters the state holds (log 28). -/
def defaultParams : Params where
  layout := cmdLayout
  format := binary32

end Sys2Proof.Machine
end

