-- ==== Sys2Proof/Machine/State.lean ====
section
/-!
DEFINITION. The state of the block (10_state.md R10) as plain data, its value after reset (10_state.md R27), and the
reasons a step can stop. `n` to `trace` are the tuple of R10; `params` holds the parameters of the
step relation (R26; log 28); `port`, `script` and `draws` are the model's own (log 9, log 6).
-/

namespace Sys2Proof.Machine

/-- The space CHAIN as data: (word address, word) pairs, addresses strictly rising, no word 0x0000 listed. An address that is
not listed holds 0x0000, the reset contents 10_state.md R27 gives. Log 15. -/
abbrev Memory := List (Nat × Word)

/-- An edge event (10_state.md R24): `dUp` D+, `dDown` D-, `cUp` C+, `cDown` C-. -/
inductive Event where
  | dUp
  | dDown
  | cUp
  | cDown
deriving DecidableEq, Repr

/-- The position of the transmitter inside a REFRESH, the block's program counter (10_state.md R23). -/
inductive Seq where
  /-- No operation in progress; a request can be taken. -/
  | idle
  /-- About to send the word at CHAIN address `a`. -/
  | gap (a : Nat)
  /-- Inside SEND_WORD of the word at address `a`; the next micro-step is `m`; `w` is the word read on entry, the
  serializer's shift register (20_memory.md R42, 41_refresh.md R103; log 14). -/
  | word (a : Nat) (m : Fin 33) (w : Word)
  /-- All words sent, latch not begun. -/
  | prelatch
  /-- Inside LATCH; the next micro-step is `p`. -/
  | latch (p : Fin 8)
deriving DecidableEq, Repr

/-- The state (10_state.md R10). -/
structure State where
  /-- CMD_LAYOUT and FP_FORMAT, parameters of the step relation, chosen once for the block (00_scope.md R5, R26). Log 28. -/
  params : Params
  /-- N, the chain length (R18). -/
  n      : Nat
  /-- CHAIN: `cmd[s]` at address `13·s`, `gs[s][k]` at `13·s + 1 + k` (R11, R13, 20_memory.md R31). -/
  chain  : Memory
  /-- DI, the level of the data line (R20). -/
  di     : Level
  /-- DCKI, the level of the clock line (R20). -/
  dcki   : Level
  /-- CRIT, the interrupt-suppress request (R22). -/
  crit   : Bool
  /-- The sequencer position (R23). -/
  seq    : Seq
  /-- The edge events since reset, oldest first (R24). -/
  trace  : List Event
  /-- The model's own: the request that stands at the block's request input now (60_exceptions.md R150). Log 9. -/
  port   : Option Request
  /-- The model's own: the requests the host has still to issue, in order (00_scope.md R6, 70 R175). Log 9. -/
  script : List Request
  /-- The model's own: how many values `draw_16()` has supplied. No statement rests on its value. Log 6. -/
  draws  : Nat
deriving DecidableEq, Repr

/-- A step that stops the machine although the spec has the transmitter go on. -/
inductive Fault where
  /-- Raised by SEND_WORD's entry at an address outside CHAIN, where MemRead does not exist (20_memory.md R31). Safe: no
  rule forms such an address, so it happens only in states no run reaches. -/
  | noSuchWord (address : Nat)
deriving DecidableEq, Repr

/-- A request or a construction the spec gives no meaning (60_exceptions.md R144). -/
inductive Refusal where
  /-- Raised by an arm of exec whose instruction has no meaning yet. Safe. -/
  | notModelled (mnemonic : String)
  /-- Raised by step for a presented bit vector that is no request: reserved op (R144 case (a), 30_encoding.md R59) or a length
  that is not its format's (30_encoding.md R59). Safe. -/
  | badRequest (why : DecodeError)
  /-- Raised by the five host operations while `seq` is not IDLE (R144 case (c), 20_memory.md R44). Safe. -/
  | busy
  /-- Raised by construction with `N < 1` or `N > N_MAX` (R144 case (b), 10_state.md R18). Safe. -/
  | badChainLength (n : Nat)
  /-- Raised by SEND_WORD or LATCH where the sequencer does not stand at it: neither can be requested (20_memory.md R45,
  30_encoding.md R50). Safe: step never runs them there. -/
  | notSequenced
deriving DecidableEq, Repr

/-- The state after a construction of a block with the parameters `p` and chain length `n` (10_state.md R27): the buffer
zero, both lines and CRIT low, IDLE, nothing on the trace. The model's own fields: nothing presented, nothing to issue, no
value drawn (log 8, 9, 6). -/
def State.initial (p : Params) (n : Nat) : State where
  params := p
  n      := n
  chain  := []
  di     := false
  dcki   := false
  crit   := false
  seq    := .idle
  trace  := []
  port   := none
  script := []
  draws  := 0

/-- The machine right after reset: the construction with N = 1, the smallest chain length the spec allows (10_state.md R18).
The spec leaves N to the construction: DESIGN CHOICE, log 1. The parameters are the spec's defaults (logs 3, 4, 5, 28). -/
def State.reset : State := State.initial defaultParams 1

end Sys2Proof.Machine
end

