-- ==== Sys2Proof/Machine/Ops.lean ====
section
/-!
DEFINITION. The named operations of the block over its state (00_scope.md section 5.1): reads and writes of CHAIN, pin
writes, CRIT, wait, draw, the sequencer move, construction. The block raises no exception and returns from none
(60_exceptions.md R140, R145), so no operation for taking one exists.
-/

namespace Sys2Proof.Machine

/-! ### CHAIN -/

/-- The word at address `a`; 0x0000 where nothing is listed (10_state.md R27). -/
def Memory.read : Memory → Nat → Word
  | [], _ => 0
  | (b, v) :: m, a => if b = a then v else Memory.read m a

/-- Puts `v` at the head of `m` under address `a`, unless it is what an unlisted address reads as. -/
def Memory.put (m : Memory) (a : Nat) (v : Word) : Memory :=
  if v = 0 then m else (a, v) :: m

/-- `m` with `v` at address `a`, in canonical form. -/
def Memory.write : Memory → Nat → Word → Memory
  | [], a, v => Memory.put [] a v
  | (b, w) :: m, a, v =>
    if a < b then Memory.put ((b, w) :: m) a v
    else if a = b then Memory.put m a v
    else (b, w) :: Memory.write m a v

/-- The canonical form from address `lo` up: addresses strictly rising, no word 0x0000. -/
def Memory.wfFrom (lo : Nat) : Memory → Bool
  | [] => true
  | (a, v) :: m => decide (lo ≤ a) && decide (v ≠ 0) && Memory.wfFrom (a + 1) m

/-- The canonical form. -/
def Memory.wf (m : Memory) : Bool := Memory.wfFrom 0 m

/-- `m` with the words of the list at `a`, `a + 1`, … in order. -/
def Memory.writeWords : Memory → Nat → List Word → Memory
  | m, _, [] => m
  | m, a, v :: vs => Memory.writeWords (m.write a v) (a + 1) vs

/-- `m` with `c` as the command word of the slots `0 … n − 1` (42_command_config.md R110: `MemWrite(13·s, 1, word)` for each). -/
def Memory.writeCommands (m : Memory) (c : Word) : Nat → Memory
  | 0 => m
  | n + 1 => (Memory.writeCommands m c n).write (13 * n) c

/-- `MemRead(a, 1)` (20_memory.md R31). -/
def State.memRead (s : State) (a : Nat) : Word := s.chain.read a

/-- `cmd[i]`, the command word of slot `i` (10_state.md R11). -/
def State.cmd (s : State) (i : Nat) : Word := s.memRead (13 * i)

/-- `gs[i][k]`, grayscale entry `k` of slot `i` (10_state.md R13). -/
def State.gs (s : State) (i k : Nat) : Word := s.memRead (13 * i + 1 + k)

/-- Whether `a` is an address of CHAIN (20_memory.md R31). -/
abbrev State.inChain (s : State) (a : Nat) : Prop := a < 13 * s.n

/-- `cmd[s] <- c` for every slot (42_command_config.md R110, R112). -/
def State.setCommands (s : State) (c : Word) : State :=
  { s with chain := s.chain.writeCommands c s.n }

/-- `gs[slot][k] <- vs[k]` in ascending `k` (43_data_assign.md R120, R124). -/
def State.setSlot (s : State) (slot : Nat) (vs : List Word) : State :=
  { s with chain := s.chain.writeWords (13 * slot + 1) vs }

/-! ### WIRE -/

/-- The event of a write to the data line: one if the level changes, else none (10_state.md R20, R24). -/
def dataEdge (before after : Level) : List Event :=
  match before, after with
  | false, true => [.dUp]
  | true, false => [.dDown]
  | false, false => []
  | true, true => []

/-- The event of a write to the clock line (10_state.md R20, R24). -/
def clockEdge (before after : Level) : List Event :=
  match before, after with
  | false, true => [.cUp]
  | true, false => [.cDown]
  | false, false => []
  | true, true => []

/-- `DI <- b` (10_state.md R20). -/
def State.setDI (s : State) (b : Level) : State :=
  { s with di := b, trace := s.trace ++ dataEdge s.di b }

/-- `DCKI <- b` (10_state.md R20). -/
def State.setDCKI (s : State) (b : Level) : State :=
  { s with dcki := b, trace := s.trace ++ clockEdge s.dcki b }

/-- `CRIT <- b` (10_state.md R22, 60_exceptions.md R147). -/
def State.setCRIT (s : State) (b : Bool) : State := { s with crit := b }

/-- `wait(T)`: the model keeps no time, so it changes no state (70_reset_and_hazards.md R176). Log 7. -/
def State.wait (s : State) (_time : Nat) : State := s

/-- `seq <- p` (00_scope.md section 5.1). -/
def State.goto (s : State) (p : Seq) : State := { s with seq := p }

/-! ### Free values -/

/-- The value the next `draw_16()` supplies (10_state.md R26). Log 6. -/
def State.nextDraw (s : State) : Word := Config.freeWord s.draws

/-- The state after `k` draws (log 6). -/
def State.afterDraws (s : State) (k : Nat) : State := { s with draws := s.draws + k }

/-! ### Taking a request -/

/-- A host operation is taken only in IDLE; a request made elsewhere is refused (20_memory.md R44, 60_exceptions.md R144 case
(c)). -/
def takeInIdle (s : State) (next : State) : Host.Outcome State Fault Refusal :=
  match s.seq with
  | .idle => .next next
  | .gap _ => .refused .busy
  | .word _ _ _ => .refused .busy
  | .prelatch => .refused .busy
  | .latch _ => .refused .busy

/-! ### Construction -/

/-- Construction of a block with the parameters `p` and chain length `n` (70_reset_and_hazards.md R160): refused outside `1
… N_MAX` (10_state.md R18, R163). -/
def State.construct (p : Params) (n : Nat) : Host.Outcome State Fault Refusal :=
  if 1 ≤ n ∧ n ≤ Config.nMax then .next (State.initial p n) else .refused (.badChainLength n)

end Sys2Proof.Machine
end

