-- ==== Sys2Proof/Machine/Operands.lean ====
section
/-!
DEFINITION. The operand forms of the operations: slot selection (10_state.md R19), the command word's layout, packing and
unpacking (10_state.md R15, R16; 42_command_config.md R113), the bias and the scaling of a normalized value
(43_data_assign.md R125 to R127).
-/

namespace Sys2Proof.Machine

/-! ### Slot selection -/

/-- `slot(idx)` in a chain of length `n`: `idx − 1` if `1 ≤ idx ≤ n`, else 0 (10_state.md R19). -/
def slotOf (n : Nat) (idx : Int) : Nat :=
  if 1 ≤ idx ∧ idx ≤ n then (idx - 1).toNat else 0

/-- Channel index `k` of group `g` (3 to 0), sub-channel `c` (A = 0, B = 1, C = 2): `k = 3·(3 − g) + c` (10_state.md R14). -/
def channelIndex (g c : Nat) : Nat := 3 * (3 - g) + c

/-! ### The command word -/

/-- The eight fields of the command word, by name (10_state.md R15). -/
inductive CmdField where
  | slew
  | depth
  | div
  | wave
  | clksrc
  | pol
  | cntrst
  | oneshot
deriving DecidableEq, Repr

/-- The eight fields in the order the source lists them. -/
def cmdFields : List CmdField := [.slew, .depth, .div, .wave, .clksrc, .pol, .cntrst, .oneshot]

/-- How many settings a field has (10_state.md R16 (d)). -/
def settings : CmdField → Nat
  | .slew => 2
  | .depth => 4
  | .div => 8
  | .wave => 2
  | .clksrc => 2
  | .pol => 2
  | .cntrst => 2
  | .oneshot => 2

/-- What a layout says of a field. -/
def fieldOf (l : Layout) : CmdField → FieldLayout
  | .slew => l.slew
  | .depth => l.depth
  | .div => l.div
  | .wave => l.wave
  | .clksrc => l.clksrc
  | .pol => l.pol
  | .cntrst => l.cntrst
  | .oneshot => l.oneshot

/-- The bit range of a field in a layout. -/
def rangeOf (l : Layout) (f : CmdField) : BitRange := (fieldOf l f).range

/-- The code table of a field in a layout. -/
def codesOfField (l : Layout) (f : CmdField) : List Nat := (fieldOf l f).codes

/-- The enumerator operand of a field (30_encoding.md R55). -/
def codeOf (e : CmdCodes) : CmdField → BitVec 8
  | .slew => e.slew
  | .depth => e.depth
  | .div => e.div
  | .wave => e.wave
  | .clksrc => e.clksrc
  | .pol => e.pol
  | .cntrst => e.cntrst
  | .oneshot => e.oneshot

/-- Whether two bit ranges share no bit. -/
def rangesDisjoint (r t : BitRange) : Bool :=
  decide (r.lo + r.width ≤ t.lo) || decide (t.lo + t.width ≤ r.lo)

/-- What the source asks of a field in any layout (10_state.md R16 (b) to (d)): a range within the 16 bits, and an injective code table
with a code for each setting of the field, which its range has room for. -/
def fieldOk (l : Layout) (f : CmdField) : Bool :=
  decide ((rangeOf l f).lo + (rangeOf l f).width ≤ 16) && decide ((codesOfField l f).length = settings f)
    && decide (codesOfField l f).Nodup && (codesOfField l f).all fun c => decide (c < 2 ^ (rangeOf l f).width)

/-- What the source asks of any layout (10_state.md R16 (a) to (d)): eight such fields, their ranges pairwise disjoint. -/
def layoutOk (l : Layout) : Bool :=
  cmdFields.all (fieldOk l)
  && cmdFields.all (fun f => cmdFields.all (fun g => f == g || rangesDisjoint (rangeOf l f) (rangeOf l g)))

/-- Whether every enumerator is one of the codes of its field (42_command_config.md R113, 30_encoding.md R55). -/
def codesInRange (l : Layout) (e : CmdCodes) : Bool :=
  cmdFields.all fun f => decide ((codeOf e f).toNat ∈ codesOfField l f)

/-- `e_F << lo_F`, one term of the packing (42_command_config.md R113). -/
def packTerm (l : Layout) (e : CmdCodes) (f : CmdField) : Word :=
  (codeOf e f).setWidth 16 <<< (rangeOf l f).lo

/-- The packing function: OR of the shifted codes (42_command_config.md R113). Nothing is masked (C3). -/
def pack (l : Layout) (e : CmdCodes) : Word :=
  packTerm l e .slew ||| packTerm l e .depth ||| packTerm l e .div
    ||| packTerm l e .wave ||| packTerm l e .clksrc ||| packTerm l e .pol
    ||| packTerm l e .cntrst ||| packTerm l e .oneshot

/-- The unpacking function `field_F(c) = (c >> lo) & (2^(hi−lo+1) − 1)` (10_state.md R16). -/
def unpackField (l : Layout) (f : CmdField) (c : Word) : Word :=
  (c >>> (rangeOf l f).lo) &&& BitVec.ofNat 16 (2 ^ (rangeOf l f).width - 1)

/-! ### The bias and the scaling -/

/-- What the spec asks of FP_FORMAT: at least 16 significand bits, so that it represents every bias (43_data_assign.md R126), and an
exponent range that reaches the largest of them. -/
def formatOk (f : FpFormat) : Bool := decide (15 ≤ f.fracBits) && decide (5 ≤ f.expBits)

/-- What the spec asks of the parameters. -/
def paramsOk (p : Params) : Bool := layoutOk p.layout && formatOk p.format

/-- Which of the settings of a field a command word holds, numbered as 10_state.md R15 lists them: the place of the unpacked code in
the code table; the length of the table if it is none of the codes. -/
def settingOf (l : Layout) (f : CmdField) (c : Word) : Nat := (codesOfField l f).idxOf (unpackField l f c).toNat

/-- `bias(c)`: from the DEPTH field of the command word, an unrecognized depth taking the 8-bit bias (43_data_assign.md R125). -/
def biasOf (l : Layout) (c : Word) : Nat :=
  match settingOf l .depth c with
  | 0 => 255
  | 1 => 4095
  | 2 => 16383
  | 3 => 65535
  | _ => 255

/-- `scale(val, b)`: the product of the value and the bias, truncated, where it is a 16-bit unsigned number (43_data_assign.md
R126); none in the unspecified case (R127). -/
def scaleOf (f : FpFormat) (val b : Nat) : Option Word :=
  fpTrunc16 (fpMulNat f (fpOfBits f val) b)

/-- `scale(val, b)` of a bit pattern of the format `f`, with the bias as it is in the state (43_data_assign.md R125, R126). -/
def State.scaled (s : State) (f : FpFormat) (val : Nat) : Option Word :=
  scaleOf f val (biasOf s.params.layout (s.cmd 0))

/-- The words DATA_SET stores for its bit patterns in ascending channel index, each unspecified one a draw of its own, and how many
draws were made; `d` draws have been made before (43_data_assign.md R124, R127). -/
def scaleAll (f : FpFormat) (b d : Nat) : List Nat → List Word × Nat
  | [] => ([], 0)
  | v :: vs =>
    match scaleOf f v b with
    | some w => (w :: (scaleAll f b d vs).1, (scaleAll f b d vs).2)
    | none => (Config.freeWord d :: (scaleAll f b (d + 1) vs).1, (scaleAll f b (d + 1) vs).2 + 1)

end Sys2Proof.Machine
end

