-- ==== Sys2Proof/Machine/Command.lean ====
section
/-!
DEFINITION. Register configuration: CMD_RAW_SET and CMD_SET (42_command_config.md R110 to R117).
-/

namespace Sys2Proof.Machine

/-- CMD_RAW_SET (42_command_config.md R110, R111): the word, verbatim, as the command of every slot. -/
def execCmdRawSet (word : Word) (s : State) : Host.Outcome State Fault Refusal :=
  takeInIdle s (s.setCommands word)

/-- CMD_SET (42_command_config.md R112 to R114, R116): the packed codes as the command of every slot; if a code is out of range,
one drawn word for all slots. -/
def execCmdSet (codes : CmdCodes) (s : State) : Host.Outcome State Fault Refusal :=
  takeInIdle s
    (if codesInRange s.params.layout codes then s.setCommands (pack s.params.layout codes)
     else (s.setCommands s.nextDraw).afterDraws 1)

end Sys2Proof.Machine
end

