-- ==== Sys2Proof/Machine/Data.lean ====
section
/-!
DEFINITION. Grayscale data assignment: DATA_RAW_SET and DATA_SET (43_data_assign.md R120 to R131).
-/

namespace Sys2Proof.Machine

/-- DATA_RAW_SET (43_data_assign.md R120 to R122): the twelve magnitudes, verbatim, into the selected slot. -/
def execDataRawSet (idx : Int) (mags : Channels Word) (s : State) : Host.Outcome State Fault Refusal :=
  takeInIdle s (s.setSlot (slotOf s.n idx) mags.toList)

/-- DATA_SET (43_data_assign.md R124 to R130): the twelve values scaled in their format by the bias of `cmd[0]`, into the selected
slot. The decoder gives values of the block's FP_FORMAT only. -/
def execDataSet (idx : Int) (vals : Values) (s : State) : Host.Outcome State Fault Refusal :=
  let r := scaleAll vals.format (biasOf s.params.layout (s.cmd 0)) s.draws vals.patterns
  takeInIdle s ((s.setSlot (slotOf s.n idx) r.1).afterDraws r.2)

end Sys2Proof.Machine
end

