-- ==== Sys2Proof/Machine/Refresh.lean ====
section
/-!
DEFINITION. REFRESH (41_refresh.md R100 to R107) at the event level: the step that takes the request. The rest of the
transition table of R103 is SEND_WORD and LATCH (Machine/Transmit.lean).
-/

namespace Sys2Proof.Machine

/-- REFRESH: from IDLE to GAP(0), where the first word of slot 0 is about to be sent (41_refresh.md R103, first row). -/
def execRefresh (s : State) : Host.Outcome State Fault Refusal :=
  takeInIdle s (s.goto (.gap 0))

end Sys2Proof.Machine
end

