-- ==== Sys2Proof/Machine/Transmit.lean ====
section
/-!
DEFINITION. The transmit primitives SEND_WORD and LATCH (40_transmit_primitives.md R80 to R91) at the event level: one step is
the entry, or one micro-step with its one pin write (R82, R88; 41_refresh.md R103).
-/

namespace Sys2Proof.Machine

/-- The sequencer position after the word at address `a`: the next word's GAP, or PRELATCH after the last (40_transmit_primitives.md
R82). -/
def afterWord (n a : Nat) : Seq :=
  if a + 1 < 13 * n then .gap (a + 1) else .prelatch

/-- The micro-step `m` of SEND_WORD of the word `w` at address `a` (40_transmit_primitives.md R82): for `m ≤ 31` with
`i = 15 − (m div 2)`, an even `m` writes `DI <- w[i]`, an odd `m` writes `DCKI <- i[0]`; `m = 32` writes `DI <- 0` and
releases CRIT. -/
def sendWordStep (a : Nat) (m : Fin 33) (w : Word) (s : State) : State :=
  if h : m.val < 32 then
    let i := 15 - m.val / 2
    let s := if m.val % 2 = 0 then s.setDI (w.getLsbD i) else s.setDCKI (decide (i % 2 = 1))
    (s.wait Config.tSettle).goto (.word a ⟨m.val + 1, Nat.succ_lt_succ h⟩ w)
  else
    (((s.setDI false).wait Config.tSettle).setCRIT false).goto (afterWord s.n a)

/-- SEND_WORD: from GAP(a), the entry, which raises CRIT and reads the word; inside WORD(a, m), the micro-step `m`
(40_transmit_primitives.md R80, R82). -/
def execSendWord (s : State) : Host.Outcome State Fault Refusal :=
  match s.seq with
  | .gap a =>
    if s.inChain a then .next ((s.setCRIT true).goto (.word a 0 (s.memRead a)))
    else .fault (.noSuchWord a)
  | .word a m w => .next (sendWordStep a m w s)
  | .idle => .refused .notSequenced
  | .prelatch => .refused .notSequenced
  | .latch _ => .refused .notSequenced

/-- The micro-step `p` of LATCH (40_transmit_primitives.md R88): an even `p` writes `DI <- 1`, an odd `p` writes `DI <- 0`; `p = 7`
also releases CRIT and ends the REFRESH. -/
def latchStep (p : Fin 8) (s : State) : State :=
  let s := (s.setDI (decide (p.val % 2 = 0))).wait Config.tSettle
  if h : p.val < 7 then s.goto (.latch ⟨p.val + 1, Nat.succ_lt_succ h⟩)
  else (s.setCRIT false).goto .idle

/-- LATCH: from PRELATCH, after the wait of 41_refresh.md R102, the entry, which raises CRIT; inside LATCH(p), the micro-step `p`
(40_transmit_primitives.md R87, R88). -/
def execLatch (s : State) : Host.Outcome State Fault Refusal :=
  match s.seq with
  | .prelatch => .next (((s.wait Config.tPrelatch).setCRIT true).goto (.latch 0))
  | .latch p => .next (latchStep p s)
  | .idle => .refused .notSequenced
  | .gap _ => .refused .notSequenced
  | .word _ _ _ => .refused .notSequenced

end Sys2Proof.Machine
end

