-- ==== Sys2Proof/Machine/Dispatch.lean ====
section
/-!
DEFINITION. exec: one arm per operation, each one direct call of that operation's meaning.
-/

namespace Sys2Proof.Machine

def exec (i : Instr) (s : State) : Host.Outcome State Fault Refusal :=
  match i with
  | .cmdRawSet word => Sys2Proof.Machine.execCmdRawSet word s
  | .cmdSet codes => Sys2Proof.Machine.execCmdSet codes s
  | .dataRawSet idx mags => Sys2Proof.Machine.execDataRawSet idx mags s
  | .dataSet idx vals => Sys2Proof.Machine.execDataSet idx vals s
  | .refresh => Sys2Proof.Machine.execRefresh s
  | .sendWord => Sys2Proof.Machine.execSendWord s
  | .latch => Sys2Proof.Machine.execLatch s

end Sys2Proof.Machine
end

