-- ==== Sys2Proof/Machine/Flags.lean ====
section
/-!
DEFINITION. The block has no status flag and no condition code (10_state.md R25), so no operation computes one. What stands
here is the status that is a function of the sequencer position: the phase code (30_encoding.md R65), whether CRIT is due
(10_state.md R22), and which micro-operation the transmitter runs next (41_refresh.md R103).
-/

namespace Sys2Proof.Machine

/-- The 2-bit phase code: 01 in WORD, 10 in LATCH, 00 in IDLE, GAP and PRELATCH (30_encoding.md R65). -/
def phaseOf : Seq → BitVec 2
  | .idle => 0
  | .gap _ => 0
  | .word _ _ _ => 1
  | .prelatch => 0
  | .latch _ => 2

/-- Whether CRIT is 1 at this position: exactly during a SEND_WORD and during a LATCH (10_state.md R22, R23). -/
def criticalAt : Seq → Bool
  | .idle => false
  | .gap _ => false
  | .word _ _ _ => true
  | .prelatch => false
  | .latch _ => true

/-- The micro-operation whose entry or whose next micro-step is the transmitter's next step (40_transmit_primitives.md R82, R88:
SEND_WORD is entered from GAP, LATCH from PRELATCH); none in IDLE. -/
def microOperation : Seq → Option Instr
  | .idle => none
  | .gap _ => some .sendWord
  | .word _ _ _ => some .sendWord
  | .prelatch => some .latch
  | .latch _ => some .latch

end Sys2Proof.Machine
end

