-- ==== Sys2Proof/Machine/Fetch.lean ====
section
/-!
DEFINITION. What the machine runs next: the request that stands at the input, the micro-operation the sequencer stands at,
or, in IDLE with nothing presented, the host's own move (00_scope.md R6, 20_memory.md R44, 70 R178).
-/

namespace Sys2Proof.Machine

/-- What a step does. -/
inductive Turn where
  /-- Run the instruction in the given state. -/
  | run (i : Instr) (s : State)
  /-- The presented bit vector is no request. -/
  | bad (why : DecodeError)
  /-- The transmitter is idle and nothing is presented: go to the given state. -/
  | rest (s : State)
deriving DecidableEq, Repr

/-- The host's move while the block is idle and nothing is presented: it presents the next request of its script, if it has
one; else the block holds what it holds (60_exceptions.md R153). Log 9, log 10. -/
def hostMove (s : State) : State :=
  match s.script with
  | r :: rs => { s with port := some r, script := rs }
  | [] => s

/-- A presented request comes first: it is decoded and leaves the request input as it is run (a host operation run outside
IDLE is refused, 20_memory.md R44). With none presented the transmitter makes its next transition (41_refresh.md R103). -/
def currentOf (s : State) : Turn :=
  match s.port with
  | some r =>
    match decodeRequest s.params.format r with
    | .ok i => .run i { s with port := none }
    | .error e => .bad e
  | none =>
    match microOperation s.seq with
    | some i => .run i s
    | none => .rest (hostMove s)

/-- `s` with the code at the place it is fetched from: a request at the request input of the idle transmitter; a micro-operation
by the sequencer position it is entered from, with no request presented (40_transmit_primitives.md R82, R88). Log 18. -/
def fetchCode (s : State) (c : Code) : State :=
  match c with
  | .request r => { s with port := some r, seq := .idle }
  | .phase p =>
    match decodePhase p with
    | .ok .sendWord => { s with port := none, seq := .gap 0 }
    | .ok .latch => { s with port := none, seq := .prelatch }
    | .ok (.cmdRawSet _) => s
    | .ok (.cmdSet _) => s
    | .ok (.dataRawSet _ _) => s
    | .ok (.dataSet _ _) => s
    | .ok .refresh => s
    | .error _ => s

/-- `s` with the instruction of `nbits` bits numbered `w` by the opcode table at the place it is fetched from (log 18). A `w` with
bits outside the row's length is presented as a vector longer than every format, so it is no request (30_encoding.md R59). -/
def fetchWord (s : State) (nbits w : Nat) : State :=
  match tableCode nbits w with
  | some c => fetchCode s c
  | none => fetchCode s (.request ⟨nbits + valsLength s.params.format + 420, BitVec.ofNat _ w⟩)

end Sys2Proof.Machine
end

