-- ==== Sys2Proof/Machine/Step.lean ====
section
/-!
DEFINITION. One step of the machine: the agent whose turn it is moves (00_scope.md R6, 41_refresh.md R103).
-/

namespace Sys2Proof.Machine

/-- One step. A presented request is decoded and run, and leaves the request input as it is taken; with none presented, a
transmitter inside a REFRESH makes its next transition; in IDLE the host presents its next request, or the block holds. -/
def step (s : State) : Host.Outcome State Fault Refusal :=
  match currentOf s with
  | .run i s' => exec i s'
  | .bad e => .refused (.badRequest e)
  | .rest s' => .next s'

/-- `s` with the instruction of `nbits` bits that the opcode table numbers as `w` placed where the next step fetches. A host
operation is presented to the idle transmitter; the micro-operations, which the sequencer selects, are selected at
their entry with no request presented (log 18). -/
def State.withFetchWord (s : State) (nbits w : Nat) : State := fetchWord s nbits w

end Sys2Proof.Machine
end

