-- ==== Sys2Proof/Machine/Observe.lean ====
section
/-!
DEFINITION. What an observer of the wire sees: the edge list of a word (40_transmit_primitives.md R83), the latch symbol (R87),
what an edge-sampling receiver reads (R84), the levels a trace leaves (10_state.md R24). No operation uses these.
-/

namespace Sys2Proof.Machine

/-- The bit indices of a word, most significant first (20_memory.md R33 (a)). -/
def bitIndices : List Nat := [15, 14, 13, 12, 11, 10, 9, 8, 7, 6, 5, 4, 3, 2, 1, 0]

/-- The bits of a word, most significant first (30_encoding.md R62). -/
def wordBits (w : Word) : List Level := bitIndices.map fun i => w.getLsbD i

/-- The clock event of the bit of index `i`: rising if `i` is odd, falling if it is even (30_encoding.md R63). -/
def clockEventAt (i : Nat) : Event := if i % 2 = 1 then .cUp else .cDown

/-- The edges of the bits of the given indices with the data line at `d` before, and the closing edge to low
(40_transmit_primitives.md R83). -/
def edgesFrom (w : Word) (d : Level) : List Nat → List Event
  | [] => dataEdge d false
  | i :: is => dataEdge d (w.getLsbD i) ++ clockEventAt i :: edgesFrom w (w.getLsbD i) is

/-- `edges(w)` (40_transmit_primitives.md R83). -/
def edges (w : Word) : List Event := edgesFrom w false bitIndices

/-- The latch symbol `D+ D- D+ D- D+ D- D+ D-` (30_encoding.md R64, 40_transmit_primitives.md R87). -/
def latchSymbol : List Event := [.dUp, .dDown, .dUp, .dDown, .dUp, .dDown, .dUp, .dDown]

/-- The edges of a chain frame of the given words and its latch symbol (41_refresh.md R100). -/
def frameEdges (ws : List Word) : List Event := ws.flatMap edges ++ latchSymbol

/-- Whether an event is of the clock line. -/
def isClock : Event → Bool
  | .dUp => false
  | .dDown => false
  | .cUp => true
  | .cDown => true

/-- Whether an event is of the data line. -/
def isData (e : Event) : Bool := !isClock e

/-- The level of the data line after a trace, from level `d` (10_state.md R24). -/
def dataLevelFrom (d : Level) : List Event → Level
  | [] => d
  | .dUp :: t => dataLevelFrom true t
  | .dDown :: t => dataLevelFrom false t
  | .cUp :: t => dataLevelFrom d t
  | .cDown :: t => dataLevelFrom d t

/-- The level of the clock line after a trace, from level `c` (10_state.md R24). -/
def clockLevelFrom (c : Level) : List Event → Level
  | [] => c
  | .dUp :: t => clockLevelFrom c t
  | .dDown :: t => clockLevelFrom c t
  | .cUp :: t => clockLevelFrom true t
  | .cDown :: t => clockLevelFrom false t

/-- The data-line level at each clock event of a trace, from level `d` (40_transmit_primitives.md R84). -/
def sampledFrom (d : Level) : List Event → List Level
  | [] => []
  | .dUp :: t => sampledFrom true t
  | .dDown :: t => sampledFrom false t
  | .cUp :: t => d :: sampledFrom d t
  | .cDown :: t => d :: sampledFrom d t

/-- `sampled(t)`, both lines low before it (40_transmit_primitives.md R84). -/
def sampled (t : List Event) : List Level := sampledFrom false t

/-- The number of level changes along a list of levels (40_transmit_primitives.md R83). -/
def levelChanges : List Level → Nat
  | [] => 0
  | [_] => 0
  | a :: b :: t => (if a = b then 0 else 1) + levelChanges (b :: t)

/-- The words of slot `i` in the order they are sent: the command word, then `gs[i][0] … gs[i][11]` (30_encoding.md R62). -/
def slotWords (s : State) (i : Nat) : List Word := s.cmd i :: (List.range 12).map (s.gs i)

/-- The words of a chain frame: slot 0 first (30_encoding.md R62). -/
def chainWords (s : State) : List Word := (List.range s.n).flatMap (slotWords s)

end Sys2Proof.Machine
end

