-- ==== Sys2Proof/Machine/Operation.lean ====
section
/-!
DEFINITION. The operation level (92_eei_decisions.md D23): SEND_WORD, LATCH and REFRESH each as one atomic step, written from the
pseudocode of 40_transmit_primitives.md R80, R87 and 41_refresh.md R100. step does not use it; that the two levels agree
(41_refresh.md R104) is stated among the obligations.
-/

namespace Sys2Proof.Machine

/-- One pass of SEND_WORD's loop: `DI <- w[i]; wait; DCKI <- i[0]; wait` (40_transmit_primitives.md R80). -/
def sendBit (w : Word) (s : State) (i : Nat) : State :=
  (((s.setDI (w.getLsbD i)).wait Config.tSettle).setDCKI (decide (i % 2 = 1))).wait Config.tSettle

/-- SEND_WORD(w) (40_transmit_primitives.md R80). -/
def sendWordOp (w : Word) (s : State) : State :=
  (((bitIndices.foldl (sendBit w) (s.setCRIT true)).setDI false).wait Config.tSettle).setCRIT false

/-- One pass of LATCH's loop: `DI <- 1; wait; DI <- 0; wait` (40_transmit_primitives.md R87). -/
def latchPulse (s : State) : State :=
  (((s.setDI true).wait Config.tSettle).setDI false).wait Config.tSettle

/-- LATCH() (40_transmit_primitives.md R87). -/
def latchOp (s : State) : State :=
  (latchPulse (latchPulse (latchPulse (latchPulse (s.setCRIT true))))).setCRIT false

/-- The SEND_WORDs of the words, in order (41_refresh.md R100). -/
def sendWordsOp (ws : List Word) (s : State) : State := ws.foldl (fun t w => sendWordOp w t) s

/-- REFRESH() (41_refresh.md R100): every word of the chain, the wait of R102, one latch. -/
def refreshOp (s : State) : State :=
  latchOp ((sendWordsOp (chainWords s) s).wait Config.tPrelatch)

end Sys2Proof.Machine
end

