-- ==== Sys2Proof/Machine/Run.lean ====
section
/-!
DEFINITION. Several steps in a row (70_reset_and_hazards.md R175), and where a run stands before each of them.
-/

namespace Sys2Proof.Machine

/-- `k` steps, stopping at the first fault or refusal. -/
def steps : Nat → State → Host.Outcome State Fault Refusal
  | 0, s => .next s
  | k + 1, s =>
    match step s with
    | .next t => steps k t
    | .fault r => .fault r
    | .refused r => .refused r

/-- The states in which the first `k` steps start, in order; the list ends early where the machine stops. -/
def standsAt : Nat → State → List State
  | 0, _ => []
  | k + 1, s =>
    match step s with
    | .next t => s :: standsAt k t
    | .fault _ => [s]
    | .refused _ => [s]

/-- The number of steps one REFRESH of a chain of length `n` takes, from the request being taken to IDLE
(41_refresh.md R103: `1 + 13·N·34 + 1 + 8`). -/
def refreshSteps (n : Nat) : Nat := 1 + 13 * n * 34 + 1 + 8

/-- A pin write: the line and the level it is driven to. -/
inductive PinWrite where
  | di (level : Level)
  | dcki (level : Level)
deriving DecidableEq, Repr

/-- The pin write of the step made at a sequencer position, as the tables of 40_transmit_primitives.md R82 and R88 give it: none
outside the primitives and on their entry, one in each micro-step. -/
def pinWriteAt : Seq → Option PinWrite
  | .idle => none
  | .gap _ => none
  | .word _ m w =>
    if m.val = 32 then some (.di false)
    else if m.val % 2 = 0 then some (.di (w.getLsbD (15 - m.val / 2)))
    else some (.dcki (decide (m.val % 4 = 1)))
  | .prelatch => none
  | .latch p => some (.di (decide (p.val % 2 = 0)))

/-- The levels of DI and DCKI after a pin write, or after none (10_state.md R20). -/
def levelsAfter (s : State) : Option PinWrite → Level × Level
  | none => (s.di, s.dcki)
  | some (.di b) => (b, s.dcki)
  | some (.dcki b) => (s.di, b)

/-- Whether the step from a state writes a pin. -/
def writesPin (s : State) : Bool := (pinWriteAt s.seq).isSome

/-- How often a level rises along a list of levels. -/
def rises : List Level → Nat
  | [] => 0
  | [_] => 0
  | a :: b :: t => (if a = false ∧ b = true then 1 else 0) + rises (b :: t)

end Sys2Proof.Machine
end

