-- ==== Sys2Proof/Safety.lean ====
section
/-!
DEFINITION. What holds of every state a run reaches, and what a safe step is. The invariants are those the spec states of every
state or every reachable state: 10_state.md R12, R18, R21 to R24, 20_memory.md R31, R37, 40_transmit_primitives.md R82, R88.
-/

namespace Sys2Proof.Machine

/-- The level DI has at a sequencer position (10_state.md R21, R23): low outside the primitives; in WORD(a, m) what the last of the
`m` micro-steps done wrote to it; in LATCH(p) high after an odd number of half-pulses. -/
def dataLevelAt : Seq → Level
  | .idle => false
  | .gap _ => false
  | .word _ m w => decide (m.val ≠ 0) && w.getLsbD (15 - (m.val - 1) / 2)
  | .prelatch => false
  | .latch p => decide (p.val % 2 = 1)

/-- The level DCKI has at a sequencer position (10_state.md R21, R23): low outside SEND_WORD; in WORD(a, m) high after an odd number
of clock writes. -/
def clockLevelAt : Seq → Level
  | .idle => false
  | .gap _ => false
  | .word _ m _ => decide (m.val / 2 % 2 = 1)
  | .prelatch => false
  | .latch _ => false

/-- The sequencer position is in the range of 10_state.md R23, and the held word is the buffer's (20_memory.md R42). -/
def seqInRange (s : State) : Prop :=
  match s.seq with
  | .idle => True
  | .gap a => s.inChain a
  | .word a _ w => s.inChain a ∧ w = s.memRead a
  | .prelatch => True
  | .latch _ => True

/-- Every slot has the command word of slot 0 (10_state.md R12). -/
def broadcast (s : State) : Prop := ∀ i, i < s.n → s.cmd i = s.cmd 0

/-- The invariant of the machine. -/
structure Invariant (s : State) : Prop where
  /-- The parameters meet the constraints the spec puts on them (10_state.md R16, 43_data_assign.md R126). -/
  parametersMeet : paramsOk s.params = true
  /-- CHAIN is in canonical form. -/
  canonical : s.chain.wf = true
  /-- The slots from N up hold 0x0000 (10_state.md R27, 20_memory.md R37). -/
  unusedZero : ∀ a, ¬ s.inChain a → s.memRead a = 0
  /-- `1 ≤ N ≤ N_MAX` (10_state.md R18). -/
  lengthInRange : 1 ≤ s.n ∧ s.n ≤ Config.nMax
  /-- The broadcast invariant (10_state.md R12). -/
  commandsEqual : broadcast s
  /-- The sequencer position and the held word (10_state.md R23, 20_memory.md R42). -/
  position : seqInRange s
  /-- The data line (10_state.md R21, R23). -/
  dataLine : s.di = dataLevelAt s.seq
  /-- The clock line (10_state.md R21, R23). -/
  clockLine : s.dcki = clockLevelAt s.seq
  /-- CRIT (10_state.md R22). -/
  critical : s.crit = criticalAt s.seq
  /-- The levels are those the trace leaves (10_state.md R24). -/
  levelsOfTrace : s.di = dataLevelFrom false s.trace ∧ s.dcki = clockLevelFrom false s.trace

/-- A safe step: it does not fault (60_exceptions.md R140, R149). A refusal is no event of the hardware (R144). -/
def SafeStep (s : State) : Prop := ∀ r, step s ≠ .fault r

end Sys2Proof.Machine
end

