-- ==== Sys2Proof/Certificates/Slice0/Obligations.lean ====
section
/-!
DEFINITION. The statements about the block. Each docstring names the sentence of spec/ the statement formalises; "derived" marks
one that rests on the spec's own inference or decision, or on a choice of the model named by its log entry.
-/

open Sys2Proof Sys2Proof.Machine

/-! ### Decoding and encoding (30_encoding.md) -/

/-- Derived (30_encoding.md sections 2 and 3; the request vector is the spec's decision D1, D2): decoding the encoding of a
well-formed instruction gives it back, whatever its operands and whatever the FP_FORMAT of its block. -/
def Obligations.DecodeOfEncodeIsIdentity : Prop :=
  ∀ (f : FpFormat) (i : Instr), i.WellFormed → i.ofFormat f = true → decode f (encode i) = .ok i

/-- Derived (30_encoding.md section 2): whatever code decodes to an instruction is the encoding of that instruction, which is
well-formed and of the block's FP_FORMAT; so an instruction has one code, and no bit of a code is ignored. -/
def Obligations.EncodeOfDecodeIsIdentity : Prop :=
  ∀ (f : FpFormat) (c : Code) (i : Instr), decode f c = .ok i → i.WellFormed ∧ i.ofFormat f = true ∧ encode i = c

/-- Derived (30_encoding.md section 2, reserved operation codes; D3, log 12): a bit vector is a request exactly if its op and its
length are those of one of the five formats, DATA_SET's length being 35 bits and twelve values of FP_FORMAT, so 419 in binary32 and
803 in binary64; a reserved op and a wrong length are rejected by name. -/
def Obligations.RequestsAreTheFiveFormats : Prop :=
  (∀ (f : FpFormat) (r : Request),
    ((∃ i, decodeRequest f r = .ok i) ↔
      ((opOf r).toNat, r.len) ∈ [(1, 19), (2, 67), (3, 227), (4, 35 + 12 * f.width), (5, 3)]) ∧
    ((opOf r).toNat ∈ [0, 6, 7] → decodeRequest f r = .error (.reservedOp (opOf r))) ∧
    ((opOf r).toNat ∈ [1, 2, 3, 4, 5] → (¬ ∃ i, decodeRequest f r = .ok i) →
      decodeRequest f r = .error (.wrongLength (opOf r) r.len))) ∧
  35 + 12 * binary32.width = 419 ∧ 35 + 12 * binary64.width = 803

/-- Derived (30_encoding.md section 2, formats R0 to RN; 10_state.md section 2, the channel order): each operand of a decoded
request is the field of the vector that its format gives, in any FP_FORMAT, and the entry `3·(3 − g) + c` of twelve operands
is group `g`, sub-channel `c`. -/
def Obligations.RequestFieldsAreTheFormats : Prop :=
  (∀ (f : FpFormat) (r : Request) (w : Word), decodeRequest f r = .ok (.cmdRawSet w) →
    r.bits.extractLsb' 0 3 = 1#3 ∧ r.len = 19 ∧ w = r.bits.extractLsb' 3 16) ∧
  (∀ (f : FpFormat) (r : Request) (e : CmdCodes), decodeRequest f r = .ok (.cmdSet e) →
    r.bits.extractLsb' 0 3 = 2#3 ∧ r.len = 67 ∧
    cmdFields.map (codeOf e) = (List.range 8).map fun j => r.bits.extractLsb' (3 + 8 * j) 8) ∧
  (∀ (f : FpFormat) (r : Request) (idx : Int) (mags : Channels Word), decodeRequest f r = .ok (.dataRawSet idx mags) →
    r.bits.extractLsb' 0 3 = 3#3 ∧ r.len = 227 ∧ idx = (r.bits.extractLsb' 3 32).toInt ∧
    mags.toList = (List.range 12).map fun k => r.bits.extractLsb' (35 + 16 * k) 16) ∧
  (∀ (f : FpFormat) (r : Request) (idx : Int) (vals : Values), decodeRequest f r = .ok (.dataSet idx vals) →
    r.bits.extractLsb' 0 3 = 4#3 ∧ r.len = 35 + 12 * f.width ∧ idx = (r.bits.extractLsb' 3 32).toInt ∧ vals.format = f ∧
    vals.patterns = (List.range 12).map fun k => (r.bits.extractLsb' (35 + f.width * k) f.width).toNat) ∧
  binary32.width = 32 ∧ binary64.width = 64 ∧
  (∀ (α : Type) (c : Channels α),
    [c.g3a, c.g3b, c.g3c].map some = [0, 1, 2].map (fun j => c.toList[channelIndex 3 j]?) ∧
    [c.g2a, c.g2b, c.g2c].map some = [0, 1, 2].map (fun j => c.toList[channelIndex 2 j]?) ∧
    [c.g1a, c.g1b, c.g1c].map some = [0, 1, 2].map (fun j => c.toList[channelIndex 1 j]?) ∧
    [c.g0a, c.g0b, c.g0c].map some = [0, 1, 2].map (fun j => c.toList[channelIndex 0 j]?) ∧
    channelIndex 3 0 = 0 ∧ channelIndex 0 2 = 11)

/-- Derived (95_test_vectors.md V2, V3, V7, 30_encoding.md section 2): requests written out in the spec decode to what they stand
for, whichever FP_FORMAT the block has. -/
def Obligations.SpecRequestWordsDecode : Prop :=
  ∀ f : FpFormat,
    decodeRequest f ⟨19, 0x03801⟩ = .ok (.cmdRawSet 0x0700) ∧
    decodeRequest f ⟨67, 0x00808000808281002⟩ = .ok (.cmdSet ⟨0, 2, 5, 1, 1, 0, 1, 1⟩) ∧
    decodeRequest f ⟨227, 0x000600058005000480040003800300028002000180010000800000013⟩
      = .ok (.dataRawSet 2 ⟨1, 2, 3, 4, 5, 6, 7, 8, 9, 10, 11, 12⟩) ∧
    decodeRequest f ⟨3, 5⟩ = .ok .refresh

/-! ### Whose turn it is (20_memory.md section 5, 60_exceptions.md section 1, log 9) -/

/-- Derived (30_encoding.md section 2, 20_memory.md section 5; log 9): a step with a presented request that decodes to `i` is
`exec i` at the state with the request taken off the request input. -/
def Obligations.StepRunsPresentedRequest : Prop :=
  ∀ (s : State) (r : Request) (i : Instr), s.port = some r → decodeRequest s.params.format r = .ok i →
    step s = exec i { s with port := none }

/-- Derived (40_transmit_primitives.md sections 1 and 2, the event level; 41_refresh.md, the transition table; that the entries
from GAP and PRELATCH count as steps of SEND_WORD and LATCH is the model's choice, log 13): with nothing presented a step runs
SEND_WORD in GAP and WORD, LATCH in PRELATCH and LATCH; where the phase code names a micro-operation, which it does in WORD and
LATCH only, it is that one. -/
def Obligations.StepRunsSequencedMicroOperation : Prop :=
  (∀ (s : State) (a : Nat), s.port = none → s.seq = .gap a → step s = exec .sendWord s) ∧
  (∀ (s : State) (a : Nat) (m : Fin 33) (w : Word), s.port = none → s.seq = .word a m w → step s = exec .sendWord s) ∧
  (∀ s : State, s.port = none → s.seq = .prelatch → step s = exec .latch s) ∧
  (∀ (s : State) (p : Fin 8), s.port = none → s.seq = .latch p → step s = exec .latch s) ∧
  (∀ (q : Seq) (i : Instr), decodePhase (phaseOf q) = .ok i → microOperation q = some i)

/-- Derived (00_scope.md section 4, 70_reset_and_hazards.md section 4; log 9, log 10): in IDLE with nothing presented the host
presents the next request of its script; with none left the block holds. -/
def Obligations.IdleStepIsTheHostsMove : Prop :=
  ∀ s : State, s.port = none → s.seq = .idle →
    (∀ r rs, s.script = r :: rs → step s = .next { s with port := some r, script := rs }) ∧
    (s.script = [] → step s = .next s)

/-- Derived (20_memory.md section 5 concurrent use, 60_exceptions.md section 2 case (c); D20): a request presented outside IDLE
is refused, and if it decodes, as busy; a host operation run there is refused as busy. -/
def Obligations.RequestOutsideIdleIsRefused : Prop :=
  (∀ (s : State) (r : Request), s.port = some r → s.seq ≠ .idle → ∃ why, step s = .refused why) ∧
  (∀ (s : State) (r : Request) (i : Instr), s.port = some r → s.seq ≠ .idle → decodeRequest s.params.format r = .ok i →
    step s = .refused .busy) ∧
  (∀ (s : State) (i : Instr), s.seq ≠ .idle → i ≠ .sendWord → i ≠ .latch → exec i s = .refused .busy)

/-- Derived (60_exceptions.md section 2 case (a), 30_encoding.md reserved operation codes; D3; for a vector of a wrong length,
of which the spec says only that it is no request, refusing it is the model's inference, log 12): a presented bit vector that is
no request is refused, with the decoder's reason. -/
def Obligations.NonRequestIsRefused : Prop :=
  ∀ (s : State) (r : Request) (e : DecodeError), s.port = some r → decodeRequest s.params.format r = .error e →
    step s = .refused (.badRequest e)

/-- Derived (92_eei_decisions.md D21, 20_memory.md section 5; log 9): a request of the host's script is presented and then run
on the state that the requests before it left, and the rest of the script stands unchanged for after it. -/
def Obligations.ScriptRunsInOrder : Prop :=
  ∀ (s : State) (r : Request) (rs : List Request) (i : Instr),
    s.port = none → s.seq = .idle → s.script = r :: rs → decodeRequest s.params.format r = .ok i →
      steps 2 s = exec i { s with script := rs }

/-- R45: the only externally triggered path to the wire is REFRESH. No request decodes to SEND_WORD or LATCH; no operation but those
two changes a line, CRIT or the trace; and a step in IDLE changes none of them and leaves IDLE only by taking a REFRESH, which has
no operand to name a slot, a word or a bit. -/
def Obligations.RefreshIsTheOnlyPathToTheWire : Prop :=
  (∀ (f : FpFormat) (r : Request), decodeRequest f r ≠ .ok .sendWord ∧ decodeRequest f r ≠ .ok .latch) ∧
  (∀ (i : Instr) (s t : State), i ≠ .sendWord → i ≠ .latch → exec i s = .next t →
    t.di = s.di ∧ t.dcki = s.dcki ∧ t.trace = s.trace ∧ t.crit = s.crit ∧ (i ≠ .refresh → t.seq = s.seq)) ∧
  (∀ s t : State, s.seq = .idle → step s = .next t →
    t.di = s.di ∧ t.dcki = s.dcki ∧ t.trace = s.trace ∧ t.crit = s.crit ∧
    (t.seq ≠ .idle → ∃ r, s.port = some r ∧ decodeRequest s.params.format r = .ok .refresh))

/-! ### Construction (70_reset_and_hazards.md section 1) -/

/-- Derived (10_state.md section 6; the levels, CRIT, seq and trace are the spec's decisions D10, D27, log 8): construction with
a chain length in `1 … N_MAX` gives a zero buffer, both lines and CRIT low, IDLE, an empty trace and the parameters asked for;
State.reset is the one with N = 1 and the default parameters (logs 1, 3, 4, 5, 28). -/
def Obligations.ConstructionGivesTheResetState : Prop :=
  (∀ p n, 1 ≤ n → n ≤ Config.nMax → ∃ t, State.construct p n = .next t ∧ t.params = p ∧ t.n = n ∧ (∀ i, t.cmd i = 0) ∧
    (∀ i k, t.gs i k = 0) ∧ t.di = false ∧ t.dcki = false ∧ t.crit = false ∧ t.seq = .idle ∧ t.trace = []) ∧
  State.construct ⟨cmdLayout, binary32⟩ 1 = .next State.reset

/-- Derived (00_scope.md section 3, 10_state.md section 5, parameters; that a state holds them is the model's choice, log 28):
neither an operation nor a step changes CMD_LAYOUT or FP_FORMAT. -/
def Obligations.ParametersNeverChange : Prop :=
  (∀ (i : Instr) (s t : State), exec i s = .next t → t.params = s.params) ∧
  (∀ s t : State, step s = .next t → t.params = s.params)

/-- R163: N is taken at reset and never changes. Construction in `1 … N_MAX` takes N from its argument, construction outside is
refused, and neither an operation nor a step changes N. -/
def Obligations.ChainLengthIsFixedAtConstruction : Prop :=
  (∀ p n, 1 ≤ n → n ≤ Config.nMax → ∃ t, State.construct p n = .next t ∧ t.n = n) ∧
  (∀ p n, n < 1 ∨ Config.nMax < n → State.construct p n = .refused (.badChainLength n)) ∧
  (∀ (i : Instr) (s t : State), exec i s = .next t → t.n = s.n) ∧
  (∀ s t : State, step s = .next t → t.n = s.n)

/-! ### Register configuration (42_command_config.md) -/

/-- R110: a 19-bit request with op 001 and the word above it is CMD_RAW_SET; in IDLE it runs, stores the word verbatim as the
command of every slot, and changes nothing else. Premise: CHAIN is in canonical form (Obligations.StepKeepsTheInvariant). -/
def Obligations.CmdRawSetBroadcastsTheWord : Prop :=
  (∀ (f : FpFormat) (w : Word), decodeRequest f ⟨19, w ++ 1#3⟩ = .ok (.cmdRawSet w)) ∧
  (∀ (w : Word) (s : State), s.seq = .idle → s.chain.wf = true →
    ∃ t, exec (.cmdRawSet w) s = .next t ∧
      (∀ i, i < s.n → t.cmd i = w) ∧
      (∀ a, (∀ i, i < s.n → a ≠ 13 * i) → t.memRead a = s.memRead a) ∧
      t = { s with chain := t.chain })

/-- Derived (42_command_config.md section 2; the default layout of the worked example is logs 3 and 4): in IDLE
CMD_SET with every enumerator in range runs, stores the word packed in the block's layout as the command of every slot, draws
nothing and changes nothing else; and the worked example. -/
def Obligations.CmdSetInRangeBroadcastsThePackedWord : Prop :=
  (∀ (e : CmdCodes) (s : State), s.seq = .idle → s.chain.wf = true → codesInRange s.params.layout e = true →
    ∃ t, exec (.cmdSet e) s = .next t ∧
      (∀ i, i < s.n → t.cmd i = pack s.params.layout e) ∧
      (∀ a, (∀ i, i < s.n → a ≠ 13 * i) → t.memRead a = s.memRead a) ∧
      t = { s with chain := t.chain }) ∧
  pack cmdLayout ⟨1, 3, 0, 0, 0, 0, 0, 0⟩ = 0x0700

/-- R114: in IDLE CMD_SET with an enumerator out of range runs, makes one draw, stores that one value as the command of every
slot, and changes nothing else. The value is free: the statement holds for every value of `draw_16()` (log 6). -/
def Obligations.CmdSetOutOfRangeBroadcastsOneDraw : Prop :=
  ∀ (e : CmdCodes) (s : State), s.seq = .idle → s.chain.wf = true → codesInRange s.params.layout e = false →
    ∃ t, exec (.cmdSet e) s = .next t ∧
      (∀ i, i < s.n → t.cmd i = Config.freeWord s.draws) ∧
      (∀ a, (∀ i, i < s.n → a ≠ 13 * i) → t.memRead a = s.memRead a) ∧
      t = { s with chain := t.chain, draws := s.draws + 1 }

/-- Derived (42_command_config.md section 2 round trip, 10_state.md section 3 constraints on any layout): in every layout that
meets the source's constraints, unpacking a field of the packed word recovers its enumerator, for every combination in range. -/
def Obligations.UnpackRecoversEveryField : Prop :=
  ∀ (l : Layout) (e : CmdCodes) (f : CmdField), layoutOk l = true → codesInRange l e = true →
    (unpackField l f (pack l e)).toNat = (codeOf e f).toNat

/-- Derived (42_command_config.md section 2, 10_state.md section 3; the default layout is general knowledge, logs 3 and 4): the default
layout meets the source's constraints, and packing maps the combinations in range one-to-one onto the 2048 words with bits 15:11
zero. -/
def Obligations.DefaultLayoutPacksOntoTheLowWords : Prop :=
  layoutOk cmdLayout = true ∧
  (∀ e, codesInRange cmdLayout e = true → (pack cmdLayout e).toNat < 2048) ∧
  (∀ e e', codesInRange cmdLayout e = true → codesInRange cmdLayout e' = true → pack cmdLayout e = pack cmdLayout e' → e = e') ∧
  (∀ w : Word, w.toNat < 2048 → ∃ e, codesInRange cmdLayout e = true ∧ pack cmdLayout e = w)

/-- Derived (30_encoding.md section 4, no pseudo-operations): CMD_SET with every enumerator in range has the effect of
CMD_RAW_SET of the packed word. -/
def Obligations.CmdSetActsAsCmdRawSetOfThePackedWord : Prop :=
  ∀ (e : CmdCodes) (s : State), codesInRange s.params.layout e = true →
    exec (.cmdSet e) s = exec (.cmdRawSet (pack s.params.layout e)) s

/-- R117: both configuration operations leave the same command word in every slot, and no operation makes the command words of
two slots differ. -/
def Obligations.CommandWordsStayEqual : Prop :=
  (∀ (w : Word) (s t : State), s.chain.wf = true → exec (.cmdRawSet w) s = .next t → broadcast t) ∧
  (∀ (e : CmdCodes) (s t : State), s.chain.wf = true → exec (.cmdSet e) s = .next t → broadcast t) ∧
  (∀ (i : Instr) (s t : State), s.chain.wf = true → broadcast s → exec i s = .next t → broadcast t)

/-! ### Grayscale data assignment (43_data_assign.md) -/

/-- R19: the selected slot is `idx − 1` if `1 ≤ idx ≤ N`, else 0; an index out of range is no error: both data operations then
do exactly what they do with index 1. -/
def Obligations.IndexOutOfRangeSelectsSlotZero : Prop :=
  (∀ (n : Nat) (idx : Int), 1 ≤ idx → idx ≤ n → (slotOf n idx : Int) = idx - 1) ∧
  (∀ (n : Nat) (idx : Int), idx ≤ 0 ∨ (n : Int) < idx → slotOf n idx = 0) ∧
  (∀ (s : State) (idx : Int) (mags : Channels Word), idx ≤ 0 ∨ (s.n : Int) < idx →
    exec (.dataRawSet idx mags) s = exec (.dataRawSet 1 mags) s) ∧
  (∀ (s : State) (idx : Int) (vals : Values), idx ≤ 0 ∨ (s.n : Int) < idx →
    exec (.dataSet idx vals) s = exec (.dataSet 1 vals) s)

/-- R120: in IDLE DATA_RAW_SET runs, stores the twelve magnitudes verbatim, the `k`-th as `gs[slot][k]`, and changes nothing
else; a presented request of format RD, op 011, is DATA_RAW_SET, and its field `req[50+16·k : 35+16·k]` becomes `gs[slot][k]` of
the slot its signed field `req[34:3]` selects. Premise: CHAIN is in canonical form (Obligations.StepKeepsTheInvariant). -/
def Obligations.DataRawSetStoresTheMagnitudes : Prop :=
  (∀ (idx : Int) (mags : Channels Word) (s : State), s.seq = .idle → s.chain.wf = true →
    ∃ t, exec (.dataRawSet idx mags) s = .next t ∧
      (∀ k, k < 12 → mags.toList[k]? = some (t.gs (slotOf s.n idx) k)) ∧
      (∀ a, a < 13 * slotOf s.n idx + 1 ∨ 13 * slotOf s.n idx + 13 ≤ a → t.memRead a = s.memRead a) ∧
      t = { s with chain := t.chain }) ∧
  (∀ (r : Request) (s : State), s.port = some r → r.len = 227 → r.bits.extractLsb' 0 3 = 3#3 →
    s.seq = .idle → s.chain.wf = true →
    ∃ t, step s = .next t ∧
      ∀ k, k < 12 → t.gs (slotOf s.n (r.bits.extractLsb' 3 32).toInt) k = r.bits.extractLsb' (35 + 16 * k) 16)

/-- Derived (43_data_assign.md section 2; the unspecified case is the spec's decision D9, log 6; FP_FORMAT is a parameter, D8,
log 28): in IDLE DATA_SET runs and writes all twelve entries of the selected slot: the scaled value where it is defined, else a
draw of the channel's own; nothing else changes. A presented request of format RN, op 100, is DATA_SET: the scaled value of its
field `k`, which starts at bit `35 + width·k` and has the width of FP_FORMAT, becomes `gs[slot][k]`. Holds for every value of
the draws. -/
def Obligations.DataSetStoresScaledOrDrawn : Prop :=
  (∀ (idx : Int) (vals : Values) (s : State), s.seq = .idle → s.chain.wf = true →
    ∃ t, exec (.dataSet idx vals) s = .next t ∧
      (∀ k v w, vals.patterns[k]? = some v → s.scaled vals.format v = some w → t.gs (slotOf s.n idx) k = w) ∧
      (∀ k v, vals.patterns[k]? = some v → s.scaled vals.format v = none →
        t.gs (slotOf s.n idx) k = Config.freeWord (s.draws + (vals.patterns.take k).countP fun u =>
          (s.scaled vals.format u).isNone)) ∧
      (∀ a, a < 13 * slotOf s.n idx + 1 ∨ 13 * slotOf s.n idx + 13 ≤ a → t.memRead a = s.memRead a) ∧
      t = { s with chain := t.chain, draws := s.draws + vals.patterns.countP fun u =>
        (s.scaled vals.format u).isNone }) ∧
  (∀ (r : Request) (s : State), s.port = some r → r.bits.extractLsb' 0 3 = 4#3 → s.seq = .idle → s.chain.wf = true →
    r.len = 35 + 12 * s.params.format.width → ∃ t, step s = .next t ∧
      ∀ k w, k < 12 →
        s.scaled s.params.format (r.bits.extractLsb' (35 + s.params.format.width * k) s.params.format.width).toNat = some w →
          t.gs (slotOf s.n (r.bits.extractLsb' 3 32).toInt) k = w)

/-- Derived (43_data_assign.md section 2, the bias; 10_state.md section 3; the default layout is logs 3 and 4): in any layout
the bias is 255, 4095, 16383, 65535 for the codes its table gives the four depths, and 255 for a DEPTH field that holds none of
them; after packing in a layout that meets the source's constraints it is that of the depth asked for. Under the default layout
the field is bits 9:8 with the codes 0 to 3, and the bias after construction is 255. -/
def Obligations.BiasFollowsTheDepthField : Prop :=
  (∀ (l : Layout) (c : Word) (j b : Nat), l.depth.codes.Nodup → l.depth.codes[j]? = some (unpackField l .depth c).toNat →
    [255, 4095, 16383, 65535][j]? = some b → biasOf l c = b) ∧
  (∀ (l : Layout) (c : Word), layoutOk l = true → (unpackField l .depth c).toNat ∉ l.depth.codes → biasOf l c = 255) ∧
  (∀ (l : Layout) (e : CmdCodes) (j b : Nat), layoutOk l = true → codesInRange l e = true →
    l.depth.codes[j]? = some e.depth.toNat → [255, 4095, 16383, 65535][j]? = some b → biasOf l (pack l e) = b) ∧
  (∀ c : Word, biasOf cmdLayout c = [255, 4095, 16383, 65535].getD (c.extractLsb' 8 2).toNat 0) ∧
  (∀ (f : FpFormat) (n : Nat), biasOf cmdLayout ((State.initial ⟨cmdLayout, f⟩ n).cmd 0) = 255)

/-- Derived (30_encoding.md section 2, the values of format RN; G8): a bit pattern stands for the number IEEE 754 gives it: sign
at the top bit, then the exponent, then the fraction; an exponent of all ones is no finite number. In any format; in binary32
the sign is bit 31, the exponent bits 30:23 with bias 127 and the fraction bits 22:0, in binary64 bit 63, bits 62:52 with bias
1023 and bits 51:0. -/
def Obligations.OperandBitsGiveTheirValue : Prop :=
  (∀ (f : FpFormat) (v : BitVec f.width), fpValue (fpOfBits f v.toNat) =
    if v.extractLsb' f.fracBits f.expBits = BitVec.allOnes f.expBits then none
    else some ((if v.getLsbD (f.fracBits + f.expBits) then -1 else 1) *
      (if v.extractLsb' f.fracBits f.expBits = 0 then
        ((v.extractLsb' 0 f.fracBits).toNat : ℚ) / 2 ^ f.fracBits * (2 : ℚ) ^ (1 - fpBias f)
       else (1 + ((v.extractLsb' 0 f.fracBits).toNat : ℚ) / 2 ^ f.fracBits) *
        (2 : ℚ) ^ (((v.extractLsb' f.fracBits f.expBits).toNat : Int) - fpBias f)))) ∧
  binary32.fracBits = 23 ∧ binary32.expBits = 8 ∧ fpBias binary32 = 127 ∧
  binary64.fracBits = 52 ∧ binary64.expBits = 11 ∧ fpBias binary64 = 1023

/-- Derived (43_data_assign.md section 2, scaling; D8, D9): in every format that meets the spec's constraints, for every operand
and every bias, the scaled value is `w` exactly if the operand is finite, its value times the bias, rounded to the format to
nearest with ties to even, lies strictly between −1 and 65536, and `w` is the rounded product truncated toward zero; a NaN or an
infinity has none. -/
def Obligations.ScaleIsTheTruncatedProduct : Prop :=
  (∀ (f : FpFormat) (val b : Nat) (w : Word), formatOk f = true → (scaleOf f val b = some w ↔
    ∃ x y, fpValue (fpOfBits f val) = some x ∧ roundsTo f (x * b) y ∧ -1 < y ∧ y < 65536 ∧
      (w.toNat : Int) = truncToward y)) ∧
  (∀ (f : FpFormat) (val b : Nat), fpValue (fpOfBits f val) = none → scaleOf f val b = none) ∧
  formatOk binary32 = true ∧ formatOk binary64 = true

/-- Derived (43_data_assign.md section 2, scaling; D9): the conversion of a floating-point value stores exactly the truncation
toward zero of a finite number strictly between −1 and 65536, as a 16-bit unsigned number, and leaves every other case
unspecified. -/
def Obligations.ConversionTruncatesTowardZero : Prop :=
  ∀ (p : Fp) (v : Word), fpTrunc16 p = some v ↔
    ∃ x, fpValue p = some x ∧ -1 < x ∧ x < 65536 ∧ (v.toNat : Int) = truncToward x

/-- Derived (43_data_assign.md section 2, scaling; D8): the product of a finite operand `(−1)^neg · mant · 2^exp` with `b` is
`mant · b · 2^exp` rounded to nearest in any format, with the operand's sign: a finite result is a number of the format, no
number of the format is nearer to the exact value, and of two equally near the result is the one with even significand; the
result is infinite exactly if the rounded value is too large for the format. A NaN and an infinity stay what they are. -/
def Obligations.ProductRoundsToNearestEven : Prop :=
  ∀ (f : FpFormat) (b : Nat),
    (∀ (neg : Bool) (mant : Nat) (exp : Int),
      let k := excessBits f (mant * b) exp
      let q := roundShift (mant * b) k
      let e := exp + (k : Int)
      representable f (magnitude q e) ∧
      (∀ y, representable f y → |magnitude q e - magnitude (mant * b) exp| ≤ |y - magnitude (mant * b) exp|) ∧
      (2 * (mant * b % 2 ^ k) = 2 ^ k → q % 2 = 0) ∧
      (fpMulNat f (.finite neg mant exp) b = .finite neg q e ∨ fpMulNat f (.finite neg mant exp) b = .inf neg) ∧
      (fpMulNat f (.finite neg mant exp) b = .inf neg ↔ (2 : ℚ) ^ (fpBias f + 1) ≤ magnitude q e)) ∧
    fpMulNat f .nan b = .nan ∧ (∀ neg, fpMulNat f (.inf neg) b = .inf neg)

/-- Derived (43_data_assign.md section 2, the floating-point format; D8): the value of the binary32 pattern 0x3F0E0638 at 14-bit
depth stores 9089 in binary32 and 9088 in binary64. -/
def Obligations.FormatsDifferOnAnInexactProduct : Prop :=
  fpValue (fpOfBits binary32 0x3F0E0638) = fpValue (fpOfBits binary64 0x3FE1C0C700000000) ∧
  scaleOf binary32 0x3F0E0638 16383 = some 9089 ∧
  scaleOf binary64 0x3FE1C0C700000000 16383 = some 9088

/-- Derived (43_data_assign.md section 2, the values the source fixes; G8 for the images): in any layout and any format that
meet the spec's constraints 16-bit depth and twelve 1.0 store 65535, 8-bit depth and twelve 0.0 store 0, 12-bit depth and 0.5
stores 2047, a value being 1.0, 0.0 or 0.5 by the number it stands for; and the images of 1.0 and 0.5 in the two formats the
spec names. -/
def Obligations.SourceFixedMagnitudesAreStored : Prop :=
  (∀ (idx : Int) (vals : Values) (s : State), s.seq = .idle → s.chain.wf = true → formatOk vals.format = true →
    (settingOf s.params.layout .depth (s.cmd 0) = 3 →
      (∀ v ∈ vals.patterns, fpValue (fpOfBits vals.format v) = some 1) →
        ∃ t, exec (.dataSet idx vals) s = .next t ∧ ∀ k, k < 12 → t.gs (slotOf s.n idx) k = 65535) ∧
    (settingOf s.params.layout .depth (s.cmd 0) = 0 →
      (∀ v ∈ vals.patterns, fpValue (fpOfBits vals.format v) = some 0) →
        ∃ t, exec (.dataSet idx vals) s = .next t ∧ ∀ k, k < 12 → t.gs (slotOf s.n idx) k = 0) ∧
    (settingOf s.params.layout .depth (s.cmd 0) = 1 →
      ∀ k v : Nat, vals.patterns[k]? = some v → fpValue (fpOfBits vals.format v) = some (1 / 2) →
        ∃ t, exec (.dataSet idx vals) s = .next t ∧ t.gs (slotOf s.n idx) k = 2047)) ∧
  fpValue (fpOfBits binary32 0x3F800000) = some 1 ∧ fpValue (fpOfBits binary64 0x3FF0000000000000) = some 1 ∧
  fpValue (fpOfBits binary32 0x3F000000) = some (1 / 2) ∧ fpValue (fpOfBits binary64 0x3FE0000000000000) = some (1 / 2)

/-- Derived (43_data_assign.md section 2, DATA_SET and DATA_RAW_SET): where every channel is defined, DATA_SET does what
DATA_RAW_SET of the scaled values does. -/
def Obligations.DataSetActsAsDataRawSetOfTheScaledValues : Prop :=
  ∀ (idx : Int) (vals : Values) (mags : Channels Word) (s : State),
    vals.patterns.map (s.scaled vals.format) = mags.toList.map some →
      exec (.dataSet idx vals) s = exec (.dataRawSet idx mags) s

/-- Derived (43_data_assign.md section 2, the bias; 10_state.md section 7): of the buffer DATA_SET reads the DEPTH field of
`cmd[0]` only: in two states that agree in it, in N, in the parameters and in the draws made, it stores the same twelve words.
-/
def Obligations.DataSetReadsOnlyTheDepthField : Prop :=
  ∀ (idx : Int) (vals : Values) (s s' t t' : State), s.chain.wf = true → s'.chain.wf = true →
    s.n = s'.n → s.params = s'.params → s.draws = s'.draws →
    unpackField s.params.layout .depth (s.cmd 0) = unpackField s.params.layout .depth (s'.cmd 0) →
    exec (.dataSet idx vals) s = .next t → exec (.dataSet idx vals) s' = .next t' →
      ∀ k, k < 12 → t.gs (slotOf s.n idx) k = t'.gs (slotOf s.n idx) k

/-- Derived (20_memory.md section 3, side effects and idempotency): a setter of given words repeated leaves the state it left
the first time. -/
def Obligations.SettersAreIdempotent : Prop :=
  (∀ (w : Word) (s t : State), s.chain.wf = true → exec (.cmdRawSet w) s = .next t → exec (.cmdRawSet w) t = .next t) ∧
  (∀ (e : CmdCodes) (s t : State), s.chain.wf = true → codesInRange s.params.layout e = true →
    exec (.cmdSet e) s = .next t → exec (.cmdSet e) t = .next t) ∧
  (∀ (idx : Int) (mags : Channels Word) (s t : State), s.chain.wf = true →
    exec (.dataRawSet idx mags) s = .next t → exec (.dataRawSet idx mags) t = .next t) ∧
  (∀ (idx : Int) (vals : Values) (s t : State), s.chain.wf = true →
    (∀ v ∈ vals.patterns, (s.scaled vals.format v).isSome = true) →
    exec (.dataSet idx vals) s = .next t → exec (.dataSet idx vals) t = .next t)

/-! ### The transmit primitives (40_transmit_primitives.md) -/

/-- Derived (41_refresh.md, first row of the transition table): in IDLE REFRESH goes to GAP(0) and changes nothing else. -/
def Obligations.RefreshEntersTheFirstGap : Prop :=
  ∀ s : State, s.seq = .idle → exec .refresh s = .next { s with seq := .gap 0 }

/-- Derived (40_transmit_primitives.md section 1, event level, D12; 41_refresh.md transition table): from GAP(a) SEND_WORD
raises CRIT and holds the word at address `a`; an even micro-step writes the next bit to DI, an odd one the level of the bit's
parity to DCKI, the last drives DI low, releases CRIT and goes to the next GAP or to PRELATCH. -/
def Obligations.SendWordMicroSteps : Prop :=
  (∀ (s : State) (a : Nat), s.seq = .gap a → s.inChain a →
    exec .sendWord s = .next { s with crit := true, seq := .word a 0 (s.memRead a) }) ∧
  (∀ (s : State) (a m : Nat) (hm : m < 32) (w : Word), s.seq = .word a ⟨m, by omega⟩ w → m % 2 = 0 →
    exec .sendWord s = .next { s with
      di := w.getLsbD (15 - m / 2), trace := s.trace ++ dataEdge s.di (w.getLsbD (15 - m / 2)),
      seq := .word a ⟨m + 1, by omega⟩ w }) ∧
  (∀ (s : State) (a m : Nat) (hm : m < 32) (w : Word), s.seq = .word a ⟨m, by omega⟩ w → m % 2 = 1 →
    exec .sendWord s = .next { s with
      dcki := decide (m % 4 = 1), trace := s.trace ++ clockEdge s.dcki (decide (m % 4 = 1)),
      seq := .word a ⟨m + 1, by omega⟩ w }) ∧
  (∀ (s : State) (a : Nat) (w : Word), s.seq = .word a 32 w →
    exec .sendWord s = .next { s with
      di := false, trace := s.trace ++ dataEdge s.di false, crit := false,
      seq := if a + 1 < 13 * s.n then .gap (a + 1) else .prelatch })

/-- Derived (40_transmit_primitives.md section 2, event level; 41_refresh.md transition table): from PRELATCH LATCH raises CRIT;
the half-pulses drive DI high and low in turn; the eighth also releases CRIT and ends the REFRESH. DCKI is not written. -/
def Obligations.LatchMicroSteps : Prop :=
  (∀ s : State, s.seq = .prelatch → exec .latch s = .next { s with crit := true, seq := .latch 0 }) ∧
  (∀ (s : State) (p : Nat) (hp : p < 7), s.seq = .latch ⟨p, by omega⟩ →
    exec .latch s = .next { s with
      di := decide (p % 2 = 0), trace := s.trace ++ dataEdge s.di (decide (p % 2 = 0)),
      seq := .latch ⟨p + 1, by omega⟩ }) ∧
  (∀ s : State, s.seq = .latch 7 →
    exec .latch s = .next { s with di := false, trace := s.trace ++ dataEdge s.di false, crit := false, seq := .idle })

/-- Derived (30_encoding.md section 1, 20_memory.md section 5; log 13): where the sequencer does not stand at it, SEND_WORD or
LATCH is refused; SEND_WORD faults only at an address outside CHAIN. -/
def Obligations.MicroOperationsRunOnlyWhereSequenced : Prop :=
  (∀ s : State, microOperation s.seq ≠ some .sendWord → exec .sendWord s = .refused .notSequenced) ∧
  (∀ s : State, microOperation s.seq ≠ some .latch → exec .latch s = .refused .notSequenced) ∧
  (∀ (i : Instr) (s : State) (r : Fault), exec i s = .fault r →
    ∃ a, i = .sendWord ∧ s.seq = .gap a ∧ ¬ s.inChain a ∧ r = .noSuchWord a)

/-- Derived (10_state.md section 5): a pin write sets the level, appends one event exactly if the level changes, and changes
nothing else. -/
def Obligations.PinWriteIsAnEdgeExactlyIfTheLevelChanges : Prop :=
  (∀ (s : State) (b : Level), ∃ es, s.setDI b = { s with di := b, trace := s.trace ++ es } ∧
    (b = s.di → es = []) ∧ (b ≠ s.di → es = [if b then .dUp else .dDown])) ∧
  (∀ (s : State) (b : Level), ∃ es, s.setDCKI b = { s with dcki := b, trace := s.trace ++ es } ∧
    (b = s.dcki → es = []) ∧ (b ≠ s.dcki → es = [if b then .cUp else .cDown]))

/-- Derived (40_transmit_primitives.md section 1, the pseudocode and its exit conditions; the count of steps is the event
level's, D23, D12, and rests on logs 13 and 21): SEND_WORD from GAP(a) with both lines and CRIT low takes 34 steps (the entry
and 33 micro-steps), leaves both lines and CRIT low, appends `edges(w)` to the trace and changes no more than that and the
sequencer position. The edge list has exactly sixteen clock events, alternating and beginning with a rising one; the phase code
inside it is SEND_WORD's; and the worked example. -/
def Obligations.SendWordAppendsTheEdgesOfItsWord : Prop :=
  (∀ (s : State) (a : Nat), s.port = none → s.seq = .gap a → s.inChain a →
    s.di = false → s.dcki = false → s.crit = false →
      steps 34 s = .next { s with
        trace := s.trace ++ edges (s.memRead a),
        seq := if a + 1 < 13 * s.n then .gap (a + 1) else .prelatch }) ∧
  (∀ w, (edges w).filter isClock = (List.replicate 8 [Event.cUp, Event.cDown]).flatten) ∧
  (∀ (a : Nat) (m : Fin 33) (w : Word), decodePhase (phaseOf (.word a m w)) = .ok .sendWord) ∧
  edges 0x8001 = [.dUp, .cUp, .dDown, .cDown, .cUp, .cDown, .cUp, .cDown, .cUp, .cDown, .cUp, .cDown, .cUp, .cDown,
    .cUp, .cDown, .cUp, .dUp, .cDown, .dDown]

/-- Derived (40_transmit_primitives.md section 2, the pseudocode and its exit conditions; the count of steps is the event
level's, D23, D12, and rests on logs 13 and 21): LATCH from PRELATCH with both lines and CRIT low takes 9 steps (the entry and 8
half-pulses), appends exactly `D+ D- D+ D- D+ D- D+ D-`, leaves both lines and CRIT low, and changes no more than that and the
sequencer position; the phase code inside it is LATCH's. -/
def Obligations.LatchAppendsFourPulses : Prop :=
  (∀ s : State, s.port = none → s.seq = .prelatch → s.di = false → s.dcki = false → s.crit = false →
    steps 9 s = .next { s with
      trace := s.trace ++ [.dUp, .dDown, .dUp, .dDown, .dUp, .dDown, .dUp, .dDown], seq := .idle }) ∧
  (∀ p : Fin 8, decodePhase (phaseOf (.latch p)) = .ok .latch)

/-- Derived (40_transmit_primitives.md section 1, what a receiver reads): a receiver that samples DI at every clock edge reads
the sixteen bits of the word, most significant first. -/
def Obligations.SampledEdgesAreTheBitsOfTheWord : Prop :=
  ∀ w : Word, sampled (edges w) = wordBits w ∧ dataLevelFrom false (edges w) = false ∧
    clockLevelFrom false (edges w) = false

/-- Derived (40_transmit_primitives.md section 1, the edge trace of a word): sixteen clock events; as many data events as the
level changes along the word's bits between two lows, an even number of at most sixteen; 16 to 32 events in all; the bounds are
reached. -/
def Obligations.EdgeCountsOfAWord : Prop :=
  (∀ w : Word, (edges w).countP isClock = 16 ∧
    (edges w).countP isData = levelChanges (false :: wordBits w ++ [false]) ∧
    (edges w).countP isData % 2 = 0 ∧ (edges w).countP isData ≤ 16 ∧
    16 ≤ (edges w).length ∧ (edges w).length ≤ 32) ∧
  (edges 0x0000).countP isData = 0 ∧ (edges 0xAAAA).countP isData = 16 ∧ (edges 0x5555).countP isData = 16

/-- Derived (40_transmit_primitives.md section 2, the latch symbol cannot arise inside data): in the words of any chain frame no
stretch without a clock event holds more than two data events, while the latch symbol is eight; after the last clock event the
frame has exactly four rising data events. -/
def Obligations.LatchSymbolCannotAriseInData : Prop :=
  (∀ (ws : List Word) (l : List Event), l <:+: ws.flatMap edges → l.all isData = true → l.length ≤ 2) ∧
  (∀ (ws : List Word) (t l : List Event), frameEdges ws = t ++ l → l.all isData = true →
    (t = [] ∨ ∃ e u, t = u ++ [e] ∧ isClock e = true) → l.countP (fun e => e == .dUp) = 4)

/-! ### REFRESH (41_refresh.md) -/

/-- Derived (41_refresh.md, the pseudocode and its exit conditions; the count of steps is the transition table's, D23, and rests
on logs 13 and 21): REFRESH of a chain of length N ≥ 1, from IDLE with both lines and CRIT low, takes `1 + 13·N·34 + 1 + 8`
steps, returns to IDLE with the buffer, both lines and CRIT as they were, and appends the edges of the N slot frames, slot 0
first, command word first, and one latch symbol; nothing else changes but the request taken. The 3-bit request 101 is REFRESH;
and the worked example. -/
def Obligations.RefreshAppendsTheChainFrame : Prop :=
  (∀ f : FpFormat, decodeRequest f ⟨3, 5⟩ = .ok .refresh) ∧
  (∀ (s : State) (r : Request), s.port = some r → decodeRequest s.params.format r = .ok .refresh → 1 ≤ s.n → s.seq = .idle →
    s.di = false → s.dcki = false → s.crit = false →
      steps (refreshSteps s.n) s = .next { s with port := none, trace := s.trace ++ frameEdges (chainWords s) }) ∧
  frameEdges (chainWords State.reset) = (List.replicate 104 [Event.cUp, Event.cDown]).flatten ++ latchSymbol

/-- Derived (41_refresh.md, the two levels agree; D23): running the event level from a taken REFRESH to IDLE gives the state
that the operation-level pseudocode gives. -/
def Obligations.EventLevelAgreesWithOperationLevel : Prop :=
  ∀ (s : State) (r : Request), s.port = some r → decodeRequest s.params.format r = .ok .refresh → 1 ≤ s.n → s.seq = .idle →
    s.di = false → s.dcki = false → s.crit = false →
      steps (refreshSteps s.n) s = .next (refreshOp { s with port := none })

/-- Derived (41_refresh.md, what the receiver reads; the count of steps rests on logs 13 and 21): REFRESH runs, and what it
appends, sampled at its clock edges, is the chain frame's bits: every word of the chain in order, most significant bit first;
208·N bits. -/
def Obligations.SampledRefreshIsTheChainFrame : Prop :=
  ∀ (s : State) (r : Request), s.port = some r → decodeRequest s.params.format r = .ok .refresh → 1 ≤ s.n →
    s.seq = .idle → s.di = false → s.dcki = false → s.crit = false →
      ∃ t l, steps (refreshSteps s.n) s = .next t ∧ t.trace = s.trace ++ l ∧
        sampled l = (chainWords s).flatMap wordBits ∧ (sampled l).length = 208 * s.n

/-- Derived (30_encoding.md section 3, 20_memory.md section 1, D16): the words of a chain frame are the words of CHAIN in
ascending address order, 13·N of them. -/
def Obligations.ChainFrameIsAscendingAddressOrder : Prop :=
  ∀ s : State, chainWords s = (List.range (13 * s.n)).map s.memRead ∧ (chainWords s).length = 13 * s.n

/-- Derived (41_refresh.md, counts; 40_transmit_primitives.md, the edge trace of a word): a chain frame has `208·N` clock events
and between 8 and `208·N + 8` data events. -/
def Obligations.EventCountsOfAChainFrame : Prop :=
  ∀ s : State, (frameEdges (chainWords s)).countP isClock = 208 * s.n ∧
    8 ≤ (frameEdges (chainWords s)).countP isData ∧ (frameEdges (chainWords s)).countP isData ≤ 208 * s.n + 8

/-- Derived (41_refresh.md, counts; 60_exceptions.md section 3; D12; the count of pin writes is that of the minimal sequence,
log 21): a step drives the lines as the pin write of its sequencer position says, and not at all where there is none; in the
steps of one REFRESH there are `429·N + 8` pin writes, and CRIT rises `13·N + 1` times. -/
def Obligations.PinWritesAndCriticalSectionsOfARefresh : Prop :=
  (∀ s t : State, step s = .next t → (t.di, t.dcki) = levelsAfter s (pinWriteAt s.seq)) ∧
  (∀ (s : State) (r : Request), s.port = some r → decodeRequest s.params.format r = .ok .refresh → 1 ≤ s.n →
    s.seq = .idle → s.crit = false →
      (standsAt (refreshSteps s.n) s).length = refreshSteps s.n ∧
      (standsAt (refreshSteps s.n) s).countP writesPin = 429 * s.n + 8 ∧
      rises ((standsAt (refreshSteps s.n) s).map (·.crit)) = 13 * s.n + 1)

/-- Derived (41_refresh.md, corner cases; 95_test_vectors.md S7; that both lines are low after construction is the spec's
decision D10, log 8): REFRESH of a freshly constructed block sends `C+ C-` 104·N times and one latch symbol. -/
def Obligations.FreshRefreshSendsZeros : Prop :=
  ∀ (p : Params) (n : Nat), 1 ≤ n →
    ∃ t, steps (refreshSteps n) { State.initial p n with port := some ⟨3, 5⟩ } = .next t ∧
      t.trace = (List.replicate (104 * n) [Event.cUp, Event.cDown]).flatten ++ latchSymbol ∧ t.seq = .idle

/-- Derived (20_memory.md sections 3 and 5; 10_state.md section 7): while a REFRESH is in progress no step changes the buffer, N
or the host's remaining requests. -/
def Obligations.TransmitterLeavesTheBuffer : Prop :=
  ∀ s t : State, s.seq ≠ .idle → step s = .next t →
    t.chain = s.chain ∧ t.n = s.n ∧ t.draws = s.draws ∧ t.port = s.port ∧ t.script = s.script

/-- Derived (10_state.md section 5; D12, D27): a step appends at most one event to the trace and removes none, and appends one
only inside SEND_WORD or LATCH. -/
def Obligations.StepAppendsAtMostOneEvent : Prop :=
  ∀ s t : State, step s = .next t →
    ∃ es, t.trace = s.trace ++ es ∧ es.length ≤ 1 ∧ (es ≠ [] → criticalAt s.seq = true)

/-! ### Invariants and progress -/

/-- Derived (10_state.md sections 2, 4, 5; 20_memory.md sections 1 and 4): every step keeps the invariant: the layout's
constraints, the canonical form, the unused slots zero, N in range, the broadcast invariant, the sequencer in range with the
held word the buffer's, the lines and CRIT what the sequencer position says, the levels those of the trace. -/
def Obligations.StepKeepsTheInvariant : Prop :=
  ∀ s t : State, Invariant s → step s = .next t → Invariant t

/-- Derived (10_state.md sections 3 and 6, logs 1, 3, 4, 5, 8): construction with a chain length in range and parameters that meet the
spec's constraints gives a state that meets the invariant, and so does State.reset. -/
def Obligations.ConstructionMeetsTheInvariant : Prop :=
  (∀ p n t, paramsOk p = true → State.construct p n = .next t → Invariant t) ∧ Invariant State.reset

/-- Derived (10_state.md section 5, the lines and CRIT; D10, D17, D18, log 8, log 19): in every state that a run of any requests
on a chain of any length reaches, both lines are low outside the primitives, and CRIT is 1 exactly inside them. -/
def Obligations.EveryRunKeepsTheLinesAndCrit : Prop :=
  ∀ (p : Params) (n k : Nat) (rs : List Request) (s : State), 1 ≤ n → n ≤ Config.nMax →
    steps k { State.initial p n with script := rs } = .next s →
      (criticalAt s.seq = false → s.di = false ∧ s.dcki = false) ∧ s.crit = criticalAt s.seq

/-- Derived (60_exceptions.md section 1, no exception; section 3; 41_refresh.md, every step always enabled): from a state that
meets the invariant no step faults, and with nothing presented a step answers a next state. -/
def Obligations.NoStepFaults : Prop :=
  (∀ s : State, Invariant s → SafeStep s) ∧ (∀ s : State, Invariant s → s.port = none → ∃ t, step s = .next t)

/-- Derived (60_exceptions.md section 3, a critical section is never left open): from a state that meets the invariant, with
nothing presented, CRIT is released within 33 steps. -/
def Obligations.CritIsReleasedWithinThirtyThreeSteps : Prop :=
  ∀ s : State, Invariant s → s.port = none → s.crit = true →
    ∃ k t, k ≤ 33 ∧ steps k s = .next t ∧ t.crit = false

/-- Derived (41_refresh.md, a REFRESH always finishes; 70_reset_and_hazards.md section 4): from a state that meets the invariant
and is inside a REFRESH, with nothing presented, the block is back in IDLE after at most the steps of one REFRESH, with the
buffer as it was. -/
def Obligations.EveryRefreshEnds : Prop :=
  ∀ s : State, Invariant s → s.port = none → s.seq ≠ .idle →
    ∃ k t, k < refreshSteps s.n ∧ steps k s = .next t ∧ t.seq = .idle ∧ t.chain = s.chain
end

