-- ==== Sys2Proof/Laws/Decode.lean ====
section
/-!
SUPPORT. The laws of the request vector: the operation code is its three lowest bits, whatever operands stand above.
-/

namespace Sys2Proof

/-- The operation code of a vector whose three lowest bits are `op` (30_encoding.md R51). -/
theorem opOf_append {n : Nat} (x : BitVec n) (op : BitVec 3) : opOf ⟨n + 3, x ++ op⟩ = op := by
  simp only [opOf]
  rw [BitVec.extractLsb'_append_eq_of_add_le (by omega)]
  simp

end Sys2Proof
end

