-- ==== Sys2Proof/Laws/State.lean ====
section
/-!
SUPPORT. One lemma per field and named update of State, so that no proof unfolds a record update.
-/

namespace Sys2Proof.Machine

@[simp] theorem State.wait_eq (s : State) (t : Nat) : s.wait t = s := rfl

@[simp] theorem State.setDI_params (s : State) (b : Level) : (s.setDI b).params = s.params := rfl
@[simp] theorem State.setDI_n (s : State) (b : Level) : (s.setDI b).n = s.n := rfl
@[simp] theorem State.setDI_chain (s : State) (b : Level) : (s.setDI b).chain = s.chain := rfl
@[simp] theorem State.setDI_di (s : State) (b : Level) : (s.setDI b).di = b := rfl
@[simp] theorem State.setDI_dcki (s : State) (b : Level) : (s.setDI b).dcki = s.dcki := rfl
@[simp] theorem State.setDI_crit (s : State) (b : Level) : (s.setDI b).crit = s.crit := rfl
@[simp] theorem State.setDI_seq (s : State) (b : Level) : (s.setDI b).seq = s.seq := rfl
@[simp] theorem State.setDI_trace (s : State) (b : Level) : (s.setDI b).trace = s.trace ++ dataEdge s.di b := rfl
@[simp] theorem State.setDI_port (s : State) (b : Level) : (s.setDI b).port = s.port := rfl
@[simp] theorem State.setDI_script (s : State) (b : Level) : (s.setDI b).script = s.script := rfl
@[simp] theorem State.setDI_draws (s : State) (b : Level) : (s.setDI b).draws = s.draws := rfl

@[simp] theorem State.setDCKI_params (s : State) (b : Level) : (s.setDCKI b).params = s.params := rfl
@[simp] theorem State.setDCKI_n (s : State) (b : Level) : (s.setDCKI b).n = s.n := rfl
@[simp] theorem State.setDCKI_chain (s : State) (b : Level) : (s.setDCKI b).chain = s.chain := rfl
@[simp] theorem State.setDCKI_di (s : State) (b : Level) : (s.setDCKI b).di = s.di := rfl
@[simp] theorem State.setDCKI_dcki (s : State) (b : Level) : (s.setDCKI b).dcki = b := rfl
@[simp] theorem State.setDCKI_crit (s : State) (b : Level) : (s.setDCKI b).crit = s.crit := rfl
@[simp] theorem State.setDCKI_seq (s : State) (b : Level) : (s.setDCKI b).seq = s.seq := rfl
@[simp] theorem State.setDCKI_trace (s : State) (b : Level) : (s.setDCKI b).trace = s.trace ++ clockEdge s.dcki b := rfl
@[simp] theorem State.setDCKI_port (s : State) (b : Level) : (s.setDCKI b).port = s.port := rfl
@[simp] theorem State.setDCKI_script (s : State) (b : Level) : (s.setDCKI b).script = s.script := rfl
@[simp] theorem State.setDCKI_draws (s : State) (b : Level) : (s.setDCKI b).draws = s.draws := rfl

@[simp] theorem State.setCRIT_params (s : State) (b : Bool) : (s.setCRIT b).params = s.params := rfl
@[simp] theorem State.setCRIT_n (s : State) (b : Bool) : (s.setCRIT b).n = s.n := rfl
@[simp] theorem State.setCRIT_chain (s : State) (b : Bool) : (s.setCRIT b).chain = s.chain := rfl
@[simp] theorem State.setCRIT_di (s : State) (b : Bool) : (s.setCRIT b).di = s.di := rfl
@[simp] theorem State.setCRIT_dcki (s : State) (b : Bool) : (s.setCRIT b).dcki = s.dcki := rfl
@[simp] theorem State.setCRIT_crit (s : State) (b : Bool) : (s.setCRIT b).crit = b := rfl
@[simp] theorem State.setCRIT_seq (s : State) (b : Bool) : (s.setCRIT b).seq = s.seq := rfl
@[simp] theorem State.setCRIT_trace (s : State) (b : Bool) : (s.setCRIT b).trace = s.trace := rfl
@[simp] theorem State.setCRIT_port (s : State) (b : Bool) : (s.setCRIT b).port = s.port := rfl
@[simp] theorem State.setCRIT_script (s : State) (b : Bool) : (s.setCRIT b).script = s.script := rfl
@[simp] theorem State.setCRIT_draws (s : State) (b : Bool) : (s.setCRIT b).draws = s.draws := rfl

@[simp] theorem State.goto_params (s : State) (p : Seq) : (s.goto p).params = s.params := rfl
@[simp] theorem State.goto_n (s : State) (p : Seq) : (s.goto p).n = s.n := rfl
@[simp] theorem State.goto_chain (s : State) (p : Seq) : (s.goto p).chain = s.chain := rfl
@[simp] theorem State.goto_di (s : State) (p : Seq) : (s.goto p).di = s.di := rfl
@[simp] theorem State.goto_dcki (s : State) (p : Seq) : (s.goto p).dcki = s.dcki := rfl
@[simp] theorem State.goto_crit (s : State) (p : Seq) : (s.goto p).crit = s.crit := rfl
@[simp] theorem State.goto_seq (s : State) (p : Seq) : (s.goto p).seq = p := rfl
@[simp] theorem State.goto_trace (s : State) (p : Seq) : (s.goto p).trace = s.trace := rfl
@[simp] theorem State.goto_port (s : State) (p : Seq) : (s.goto p).port = s.port := rfl
@[simp] theorem State.goto_script (s : State) (p : Seq) : (s.goto p).script = s.script := rfl
@[simp] theorem State.goto_draws (s : State) (p : Seq) : (s.goto p).draws = s.draws := rfl

@[simp] theorem State.setCommands_params (s : State) (c : Word) : (s.setCommands c).params = s.params := rfl
@[simp] theorem State.setCommands_n (s : State) (c : Word) : (s.setCommands c).n = s.n := rfl
@[simp] theorem State.setCommands_chain (s : State) (c : Word) : (s.setCommands c).chain = s.chain.writeCommands c s.n := rfl
@[simp] theorem State.setCommands_di (s : State) (c : Word) : (s.setCommands c).di = s.di := rfl
@[simp] theorem State.setCommands_dcki (s : State) (c : Word) : (s.setCommands c).dcki = s.dcki := rfl
@[simp] theorem State.setCommands_crit (s : State) (c : Word) : (s.setCommands c).crit = s.crit := rfl
@[simp] theorem State.setCommands_seq (s : State) (c : Word) : (s.setCommands c).seq = s.seq := rfl
@[simp] theorem State.setCommands_trace (s : State) (c : Word) : (s.setCommands c).trace = s.trace := rfl
@[simp] theorem State.setCommands_port (s : State) (c : Word) : (s.setCommands c).port = s.port := rfl
@[simp] theorem State.setCommands_script (s : State) (c : Word) : (s.setCommands c).script = s.script := rfl
@[simp] theorem State.setCommands_draws (s : State) (c : Word) : (s.setCommands c).draws = s.draws := rfl

@[simp] theorem State.setSlot_params (s : State) (i : Nat) (vs : List Word) : (s.setSlot i vs).params = s.params := rfl
@[simp] theorem State.setSlot_n (s : State) (i : Nat) (vs : List Word) : (s.setSlot i vs).n = s.n := rfl
@[simp] theorem State.setSlot_chain (s : State) (i : Nat) (vs : List Word) : (s.setSlot i vs).chain = s.chain.writeWords (13 * i + 1) vs := rfl
@[simp] theorem State.setSlot_di (s : State) (i : Nat) (vs : List Word) : (s.setSlot i vs).di = s.di := rfl
@[simp] theorem State.setSlot_dcki (s : State) (i : Nat) (vs : List Word) : (s.setSlot i vs).dcki = s.dcki := rfl
@[simp] theorem State.setSlot_crit (s : State) (i : Nat) (vs : List Word) : (s.setSlot i vs).crit = s.crit := rfl
@[simp] theorem State.setSlot_seq (s : State) (i : Nat) (vs : List Word) : (s.setSlot i vs).seq = s.seq := rfl
@[simp] theorem State.setSlot_trace (s : State) (i : Nat) (vs : List Word) : (s.setSlot i vs).trace = s.trace := rfl
@[simp] theorem State.setSlot_port (s : State) (i : Nat) (vs : List Word) : (s.setSlot i vs).port = s.port := rfl
@[simp] theorem State.setSlot_script (s : State) (i : Nat) (vs : List Word) : (s.setSlot i vs).script = s.script := rfl
@[simp] theorem State.setSlot_draws (s : State) (i : Nat) (vs : List Word) : (s.setSlot i vs).draws = s.draws := rfl

@[simp] theorem State.afterDraws_params (s : State) (k : Nat) : (s.afterDraws k).params = s.params := rfl
@[simp] theorem State.afterDraws_n (s : State) (k : Nat) : (s.afterDraws k).n = s.n := rfl
@[simp] theorem State.afterDraws_chain (s : State) (k : Nat) : (s.afterDraws k).chain = s.chain := rfl
@[simp] theorem State.afterDraws_di (s : State) (k : Nat) : (s.afterDraws k).di = s.di := rfl
@[simp] theorem State.afterDraws_dcki (s : State) (k : Nat) : (s.afterDraws k).dcki = s.dcki := rfl
@[simp] theorem State.afterDraws_crit (s : State) (k : Nat) : (s.afterDraws k).crit = s.crit := rfl
@[simp] theorem State.afterDraws_seq (s : State) (k : Nat) : (s.afterDraws k).seq = s.seq := rfl
@[simp] theorem State.afterDraws_trace (s : State) (k : Nat) : (s.afterDraws k).trace = s.trace := rfl
@[simp] theorem State.afterDraws_port (s : State) (k : Nat) : (s.afterDraws k).port = s.port := rfl
@[simp] theorem State.afterDraws_script (s : State) (k : Nat) : (s.afterDraws k).script = s.script := rfl
@[simp] theorem State.afterDraws_draws (s : State) (k : Nat) : (s.afterDraws k).draws = s.draws + k := rfl

/-! ### The state after construction -/

@[simp] theorem State.initial_params (p : Params) (n : Nat) : (State.initial p n).params = p := rfl
@[simp] theorem State.initial_n (p : Params) (n : Nat) : (State.initial p n).n = n := rfl
@[simp] theorem State.initial_chain (p : Params) (n : Nat) : (State.initial p n).chain = [] := rfl
@[simp] theorem State.initial_di (p : Params) (n : Nat) : (State.initial p n).di = false := rfl
@[simp] theorem State.initial_dcki (p : Params) (n : Nat) : (State.initial p n).dcki = false := rfl
@[simp] theorem State.initial_crit (p : Params) (n : Nat) : (State.initial p n).crit = false := rfl
@[simp] theorem State.initial_seq (p : Params) (n : Nat) : (State.initial p n).seq = .idle := rfl
@[simp] theorem State.initial_trace (p : Params) (n : Nat) : (State.initial p n).trace = [] := rfl
@[simp] theorem State.initial_port (p : Params) (n : Nat) : (State.initial p n).port = none := rfl
@[simp] theorem State.initial_script (p : Params) (n : Nat) : (State.initial p n).script = [] := rfl
@[simp] theorem State.initial_draws (p : Params) (n : Nat) : (State.initial p n).draws = 0 := rfl

/-! ### Reads of the buffer through the updates that do not write it -/

@[simp] theorem State.memRead_setDI (s : State) (b : Level) (a : Nat) : (s.setDI b).memRead a = s.memRead a := rfl
@[simp] theorem State.memRead_setDCKI (s : State) (b : Level) (a : Nat) : (s.setDCKI b).memRead a = s.memRead a := rfl
@[simp] theorem State.memRead_setCRIT (s : State) (b : Bool) (a : Nat) : (s.setCRIT b).memRead a = s.memRead a := rfl
@[simp] theorem State.memRead_goto (s : State) (p : Seq) (a : Nat) : (s.goto p).memRead a = s.memRead a := rfl
@[simp] theorem State.memRead_afterDraws (s : State) (k a : Nat) : (s.afterDraws k).memRead a = s.memRead a := rfl

/-! ### Updates in a row -/

@[simp] theorem State.goto_goto (s : State) (p q : Seq) : (s.goto p).goto q = s.goto q := rfl

@[simp] theorem State.setDI_goto (s : State) (p : Seq) (b : Level) : (s.goto p).setDI b = (s.setDI b).goto p := rfl

@[simp] theorem State.setDCKI_goto (s : State) (p : Seq) (b : Level) : (s.goto p).setDCKI b = (s.setDCKI b).goto p := rfl

@[simp] theorem State.setCRIT_goto (s : State) (p : Seq) (b : Bool) : (s.goto p).setCRIT b = (s.setCRIT b).goto p := rfl

@[simp] theorem State.setCRIT_setCRIT (s : State) (b c : Bool) : (s.setCRIT b).setCRIT c = s.setCRIT c := rfl

/-- A write of the level the data line has leaves the state as it is (10_state.md R20). -/
theorem State.setDI_same (s : State) : s.setDI s.di = s := by
  cases s with
  | mk params n chain di dcki crit seq trace port script draws => cases di <;> simp [State.setDI, dataEdge]

/-- A write of the level the clock line has leaves the state as it is (10_state.md R20). -/
theorem State.setDCKI_same (s : State) : s.setDCKI s.dcki = s := by
  cases s with
  | mk params n chain di dcki crit seq trace port script draws => cases dcki <;> simp [State.setDCKI, clockEdge]

end Sys2Proof.Machine
end

