-- ==== Sys2Proof/Laws/Memory.lean ====
section
/-!
SUPPORT. The laws of CHAIN: a read after a write, the canonical form kept by every operation, equal reads make equal
memories, and what the two bulk writes store and leave alone.
-/

namespace Sys2Proof.Machine

/-! ### The canonical form -/

@[simp] theorem Memory.wfFrom_nil (lo : Nat) : Memory.wfFrom lo [] = true := rfl

theorem Memory.wfFrom_cons (lo a : Nat) (v : Word) (m : Memory) :
    Memory.wfFrom lo ((a, v) :: m) = true ↔ lo ≤ a ∧ v ≠ 0 ∧ Memory.wfFrom (a + 1) m = true := by
  simp [Memory.wfFrom, and_assoc]

theorem Memory.wfFrom_mono {lo lo' : Nat} (h : lo' ≤ lo) {m : Memory} (hm : Memory.wfFrom lo m = true) :
    Memory.wfFrom lo' m = true := by
  cases m with
  | nil => rfl
  | cons p m =>
    obtain ⟨a, v⟩ := p
    rw [Memory.wfFrom_cons] at hm ⊢
    exact ⟨h.trans hm.1, hm.2⟩

theorem Memory.wfFrom_put {lo a : Nat} (h : lo ≤ a) (v : Word) {m : Memory} (hm : Memory.wfFrom (a + 1) m = true) :
    Memory.wfFrom lo (m.put a v) = true := by
  unfold Memory.put
  split
  · exact Memory.wfFrom_mono (by omega) hm
  · rename_i hv
    exact (Memory.wfFrom_cons ..).2 ⟨h, hv, hm⟩

theorem Memory.wfFrom_write {lo a : Nat} (h : lo ≤ a) (v : Word) {m : Memory} (hm : Memory.wfFrom lo m = true) :
    Memory.wfFrom lo (m.write a v) = true := by
  induction m generalizing lo with
  | nil => exact Memory.wfFrom_put h v rfl
  | cons p m ih =>
    obtain ⟨b, w⟩ := p
    have hb := (Memory.wfFrom_cons ..).1 hm
    rw [Memory.write]
    split
    · exact Memory.wfFrom_put h v ((Memory.wfFrom_cons ..).2 ⟨by omega, hb.2⟩)
    · split
      · subst b
        exact Memory.wfFrom_put h v hb.2.2
      · exact (Memory.wfFrom_cons ..).2 ⟨hb.1, hb.2.1, ih (by omega) hb.2.2⟩

/-- A write keeps the canonical form. -/
theorem Memory.wf_write {m : Memory} (hm : m.wf = true) (a : Nat) (v : Word) : (m.write a v).wf = true :=
  Memory.wfFrom_write (Nat.zero_le a) v hm

theorem Memory.wf_writeWords {m : Memory} (hm : m.wf = true) (a : Nat) (vs : List Word) :
    (m.writeWords a vs).wf = true := by
  induction vs generalizing m a with
  | nil => exact hm
  | cons v vs ih => exact ih (Memory.wf_write hm a v) (a + 1)

theorem Memory.wf_writeCommands {m : Memory} (hm : m.wf = true) (c : Word) (n : Nat) :
    (m.writeCommands c n).wf = true := by
  induction n with
  | zero => exact hm
  | succ n ih => exact Memory.wf_write ih _ c

/-- The buffer after a construction is in canonical form. -/
theorem State.initial_wf (p : Params) (n : Nat) : (State.initial p n).chain.wf = true := rfl

/-! ### Reads -/

@[simp] theorem Memory.read_nil (a : Nat) : Memory.read [] a = 0 := rfl

theorem Memory.read_below {lo a : Nat} {m : Memory} (hm : Memory.wfFrom lo m = true) (h : a < lo) : m.read a = 0 := by
  induction m generalizing lo with
  | nil => rfl
  | cons p m ih =>
    obtain ⟨b, w⟩ := p
    have hb := (Memory.wfFrom_cons ..).1 hm
    rw [Memory.read, if_neg (by omega)]
    exact ih hb.2.2 (by omega)

theorem Memory.read_put_same {m : Memory} {a : Nat} (v : Word) (hm : Memory.wfFrom (a + 1) m = true) :
    (m.put a v).read a = v := by
  unfold Memory.put
  split
  · rename_i hv
    rw [hv]
    exact Memory.read_below hm (by omega)
  · simp [Memory.read]

theorem Memory.read_put_other {m : Memory} {a c : Nat} (v : Word) (h : c ≠ a) : (m.put a v).read c = m.read c := by
  unfold Memory.put
  split
  · rfl
  · rw [Memory.read, if_neg (Ne.symm h)]

/-- A read after a write to the same address gives the value written. -/
theorem Memory.read_write_same {m : Memory} (hm : m.wf = true) (a : Nat) (v : Word) : (m.write a v).read a = v := by
  suffices ∀ lo, lo ≤ a → Memory.wfFrom lo m = true → (m.write a v).read a = v from this 0 (Nat.zero_le a) hm
  clear hm
  induction m with
  | nil => exact fun _ _ _ => Memory.read_put_same v rfl
  | cons p m ih =>
    obtain ⟨b, w⟩ := p
    intro lo hlo hm
    have hb := (Memory.wfFrom_cons ..).1 hm
    rw [Memory.write]
    split
    · exact Memory.read_put_same v ((Memory.wfFrom_cons ..).2 ⟨by omega, hb.2⟩)
    · split
      · subst b
        exact Memory.read_put_same v hb.2.2
      · rw [Memory.read, if_neg (by omega)]
        exact ih _ (by omega) hb.2.2

/-- A write leaves every other address alone. -/
theorem Memory.read_write_other (m : Memory) {a c : Nat} (v : Word) (h : c ≠ a) : (m.write a v).read c = m.read c := by
  induction m with
  | nil => exact Memory.read_put_other v h
  | cons p m ih =>
    obtain ⟨b, w⟩ := p
    rw [Memory.write]
    split
    · exact Memory.read_put_other v h
    · split
      · subst b
        rw [Memory.read_put_other v h, Memory.read, if_neg (Ne.symm h)]
      · rw [Memory.read, Memory.read, ih]

/-- Two memories in canonical form that read alike everywhere are equal. -/
theorem Memory.ext_read {m m' : Memory} (hm : m.wf = true) (hm' : m'.wf = true) (h : ∀ a, m.read a = m'.read a) :
    m = m' := by
  suffices ∀ lo, Memory.wfFrom lo m = true → Memory.wfFrom lo m' = true → m = m' from this 0 hm hm'
  clear hm hm'
  induction m generalizing m' with
  | nil =>
    intro lo _ hm'
    cases m' with
    | nil => rfl
    | cons p m' =>
      obtain ⟨b, w⟩ := p
      have hb := (Memory.wfFrom_cons ..).1 hm'
      exact absurd (h b).symm (by simpa [Memory.read] using hb.2.1)
  | cons p m ih =>
    obtain ⟨b, w⟩ := p
    intro lo hm hm'
    have hb := (Memory.wfFrom_cons ..).1 hm
    cases m' with
    | nil => exact absurd (h b) (by simpa [Memory.read] using hb.2.1)
    | cons p' m' =>
      obtain ⟨b', w'⟩ := p'
      have hb' := (Memory.wfFrom_cons ..).1 hm'
      have heq : b = b' := by
        by_contra hne
        rcases Nat.lt_or_gt_of_ne hne with hlt | hlt
        · have hr := h b
          rw [Memory.read, if_pos rfl, Memory.read, if_neg (Ne.symm hne), Memory.read_below hb'.2.2 (by omega)] at hr
          exact hb.2.1 hr
        · have hr := h b'
          rw [Memory.read, if_neg hne, Memory.read, if_pos rfl, Memory.read_below hb.2.2 (by omega)] at hr
          exact hb'.2.1 hr.symm
      subst heq
      have hw : w = w' := by simpa [Memory.read] using h b
      subst hw
      refine congrArg _ (ih (fun a => ?_) _ hb.2.2 hb'.2.2)
      by_cases hab : a = b
      · subst hab
        rw [Memory.read_below hb.2.2 (by omega), Memory.read_below hb'.2.2 (by omega)]
      · have hr := h a
        rwa [Memory.read, if_neg (Ne.symm hab), Memory.read, if_neg (Ne.symm hab)] at hr

/-! ### The bulk writes -/

/-- Writing words from `a` up leaves every address outside them alone. -/
theorem Memory.read_writeWords_other (m : Memory) {a c : Nat} (vs : List Word) (h : c < a ∨ a + vs.length ≤ c) :
    (m.writeWords a vs).read c = m.read c := by
  induction vs generalizing m a with
  | nil => rfl
  | cons v vs ih =>
    rw [List.length_cons] at h
    rw [Memory.writeWords, ih _ (by omega), Memory.read_write_other _ _ (by omega)]

/-- Writing words from `a` up stores the `k`-th at `a + k`. -/
theorem Memory.read_writeWords_same {m : Memory} (hm : m.wf = true) (a : Nat) (vs : List Word) {k : Nat}
    (hk : k < vs.length) : (m.writeWords a vs).read (a + k) = vs[k] := by
  induction vs generalizing m a k with
  | nil => exact absurd hk (Nat.not_lt_zero k)
  | cons v vs ih =>
    cases k with
    | zero =>
      rw [Memory.writeWords, Memory.read_writeWords_other _ _ (by omega)]
      exact Memory.read_write_same hm a v
    | succ k =>
      have hk' : k < vs.length := by simpa using hk
      have := ih (Memory.wf_write hm a v) (a + 1) hk'
      rw [Memory.writeWords, show a + (k + 1) = a + 1 + k by omega, this, List.getElem_cons_succ]

/-- Writing the command words leaves every other address alone. -/
theorem Memory.read_writeCommands_other (m : Memory) (c : Word) {n a : Nat} (h : ∀ i, i < n → a ≠ 13 * i) :
    (m.writeCommands c n).read a = m.read a := by
  induction n with
  | zero => rfl
  | succ n ih =>
    rw [Memory.writeCommands, Memory.read_write_other _ _ (h n (Nat.lt_succ_self n))]
    exact ih fun i hi => h i (by omega)

/-- Writing the command words stores the word in every slot. -/
theorem Memory.read_writeCommands_same {m : Memory} (hm : m.wf = true) (c : Word) {n i : Nat} (hi : i < n) :
    (m.writeCommands c n).read (13 * i) = c := by
  induction n with
  | zero => exact absurd hi (Nat.not_lt_zero i)
  | succ n ih =>
    rw [Memory.writeCommands]
    by_cases h : i = n
    · subst h
      exact Memory.read_write_same (Memory.wf_writeCommands hm c i) _ c
    · rw [Memory.read_write_other _ _ (by omega)]
      exact ih (by omega)

/-! ### The same through State -/

theorem State.wf_setCommands {s : State} (hs : s.chain.wf = true) (c : Word) : (s.setCommands c).chain.wf = true :=
  Memory.wf_writeCommands hs c s.n

theorem State.wf_setSlot {s : State} (hs : s.chain.wf = true) (i : Nat) (vs : List Word) :
    (s.setSlot i vs).chain.wf = true :=
  Memory.wf_writeWords hs _ vs

/-- What `setCommands` stores (42_command_config.md R110). -/
theorem State.cmd_setCommands {s : State} (hs : s.chain.wf = true) (c : Word) {i : Nat} (hi : i < s.n) :
    (s.setCommands c).cmd i = c :=
  Memory.read_writeCommands_same hs c hi

/-- What `setCommands` leaves alone (42_command_config.md R110). -/
theorem State.memRead_setCommands_other (s : State) (c : Word) {a : Nat} (h : ∀ i, i < s.n → a ≠ 13 * i) :
    (s.setCommands c).memRead a = s.memRead a :=
  Memory.read_writeCommands_other s.chain c h

/-- What `setSlot` stores (43_data_assign.md R120). -/
theorem State.gs_setSlot {s : State} (hs : s.chain.wf = true) (i : Nat) (vs : List Word) {k : Nat} (hk : k < vs.length) :
    (s.setSlot i vs).gs i k = vs[k] :=
  Memory.read_writeWords_same hs _ vs hk

/-- What `setSlot` leaves alone (43_data_assign.md R120). -/
theorem State.memRead_setSlot_other (s : State) (i : Nat) (vs : List Word) {a : Nat}
    (h : a < 13 * i + 1 ∨ 13 * i + 1 + vs.length ≤ a) : (s.setSlot i vs).memRead a = s.memRead a :=
  Memory.read_writeWords_other s.chain vs h

end Sys2Proof.Machine
end

