-- ==== Sys2Proof/Laws/Operands.lean ====
section
/-!
SUPPORT. The laws of the operand forms: slot selection, the words DATA_SET stores, twelve operands as a list.
-/

namespace Sys2Proof.Machine

@[simp] theorem channels_length {α : Type} (c : Channels α) : c.toList.length = 12 := rfl

@[simp] theorem patterns_length (v : Values) : v.patterns.length = 12 := rfl

/-- An index in range selects its slot (10_state.md R19). -/
theorem slotOf_inRange {n : Nat} {idx : Int} (h : 1 ≤ idx ∧ idx ≤ n) : slotOf n idx = (idx - 1).toNat := by
  simp [slotOf, h]

/-- An index out of range selects slot 0 (10_state.md R19). -/
theorem slotOf_outOfRange {n : Nat} {idx : Int} (h : idx < 1 ∨ (n : Int) < idx) : slotOf n idx = 0 := by
  rw [slotOf, if_neg (by omega)]

/-- The selected slot is a slot of the chain (10_state.md R19). -/
theorem slotOf_lt {n : Nat} (hn : 1 ≤ n) (idx : Int) : slotOf n idx < n := by
  unfold slotOf
  split <;> omega

@[simp] theorem scaleAll_length (f : FpFormat) (b d : Nat) (vs : List Nat) :
    (scaleAll f b d vs).1.length = vs.length := by
  induction vs generalizing d with
  | nil => rfl
  | cons v vs ih =>
    rw [scaleAll]
    split <;> simp [ih]

/-- How many draws DATA_SET makes: one for each value in the unspecified case (43_data_assign.md R127). -/
theorem scaleAll_draws (f : FpFormat) (b d : Nat) (vs : List Nat) :
    (scaleAll f b d vs).2 = vs.countP fun v => (scaleOf f v b).isNone := by
  induction vs generalizing d with
  | nil => rfl
  | cons v vs ih =>
    rw [scaleAll]
    split <;> rename_i h <;> simp [ih, h]

/-- The k-th word DATA_SET stores: the scaled value where it is defined, else the draw that follows those of the channels before
(43_data_assign.md R126, R127). -/
theorem scaleAll_getElem? (f : FpFormat) (b d : Nat) (vs : List Nat) {k v : Nat}
    (h : vs[k]? = some v) :
    (scaleAll f b d vs).1[k]? = some ((scaleOf f v b).getD (Config.freeWord
      (d + (vs.take k).countP fun u => (scaleOf f u b).isNone))) := by
  induction vs generalizing d k with
  | nil => simp at h
  | cons u vs ih =>
    rw [scaleAll]
    cases k with
    | zero =>
      simp only [List.getElem?_cons_zero, Option.some.injEq] at h
      subst h
      split <;> rename_i hu <;> simp [hu]
    | succ k =>
      rw [List.getElem?_cons_succ] at h
      split <;> rename_i hu
      · simp [hu, ih d h]
      · simp [hu, ih (d + 1) h, Nat.add_assoc, Nat.add_comm 1]

/-- The words DATA_SET stores are words a DATA_RAW_SET can carry: twelve of them. -/
theorem scaleAll_values_length (f : FpFormat) (b d : Nat) (v : Values) :
    (scaleAll f b d v.patterns).1.length = 12 := by
  simp

end Sys2Proof.Machine
end

