-- ==== Sys2Proof/Laws/PerInstr.lean ====
section
/-!
SUPPORT. Statements made per instruction. Family `Format`: the code an instruction is named by has the length and the operation
code of its row of the opcode table (30_encoding.md R52, R65).
-/

namespace Sys2Proof.Laws.Format

/-- The length in bits and the lowest bits of the code of each operation (30_encoding.md R52, R65). -/
def row : Instr → Nat × Nat
  | .cmdRawSet _ => (19, 1)
  | .cmdSet _ => (67, 2)
  | .dataRawSet _ _ => (227, 3)
  | .dataSet _ vals => (valsLength vals.format, 4)
  | .refresh => (3, 5)
  | .sendWord => (2, 1)
  | .latch => (2, 2)

/-- The length in bits of a code and its lowest bits: `req[2:0]` of a request, the phase code itself. -/
def shape : Code → Nat × Nat
  | .request r => (r.len, (opOf r).toNat)
  | .phase p => (2, p.toNat)

/-- The encoding of an instruction has the shape of its row. -/
def Statement (i : Instr) : Prop := shape (encode i) = row i

theorem cmdRawSet (word : Word) : Statement (.cmdRawSet word) :=
  Prod.ext rfl (congrArg BitVec.toNat (opOf_append _ _))

theorem cmdSet (codes : CmdCodes) : Statement (.cmdSet codes) :=
  Prod.ext rfl (congrArg BitVec.toNat (opOf_append _ _))

theorem dataRawSet (idx : Int) (mags : Channels Word) : Statement (.dataRawSet idx mags) :=
  Prod.ext rfl (congrArg BitVec.toNat (opOf_append _ _))

theorem dataSet (idx : Int) (vals : Values) : Statement (.dataSet idx vals) := by
  refine Prod.ext ?_ (congrArg BitVec.toNat (opOf_append _ _))
  simp only [shape, encode, encodeVals, row, valsLength]
  omega

theorem refresh : Statement .refresh := rfl

theorem sendWord : Statement .sendWord := rfl

theorem latch : Statement .latch := rfl

end Sys2Proof.Laws.Format
end

