-- ==== Sys2Proof/Laws/Step.lean ====
section
/-!
SUPPORT. What a step can do, said once: the inversion of taking a request, of every meaning, of exec and of step.
-/

namespace Sys2Proof.Machine

/-! ### Taking a request -/

theorem takeInIdle_idle {s : State} (h : s.seq = .idle) (t : State) : takeInIdle s t = .next t := by
  simp [takeInIdle, h]

theorem takeInIdle_busy {s : State} (h : s.seq ≠ .idle) (t : State) : takeInIdle s t = .refused .busy := by
  unfold takeInIdle
  split <;> first | rfl | (rename_i h'; exact absurd h' h)

theorem takeInIdle_next {s t u : State} (h : takeInIdle s t = .next u) : s.seq = .idle ∧ u = t := by
  unfold takeInIdle at h
  split at h <;> first | (rename_i h'; exact ⟨h', by cases h; rfl⟩) | cases h

theorem takeInIdle_not_fault (s t : State) (r : Fault) : takeInIdle s t ≠ .fault r := by
  unfold takeInIdle
  split <;> simp

/-! ### The micro-steps, row by row (41_refresh.md R103) -/

theorem execSendWord_gap {s : State} {a : Nat} (hseq : s.seq = .gap a) (ha : s.inChain a) :
    execSendWord s = .next ((s.setCRIT true).goto (.word a 0 (s.memRead a))) := by
  simp [execSendWord, hseq, ha]

theorem execSendWord_word {s : State} {a : Nat} {m : Fin 33} {w : Word} (hseq : s.seq = .word a m w) :
    execSendWord s = .next (sendWordStep a m w s) := by
  simp [execSendWord, hseq]

theorem execLatch_prelatch {s : State} (hseq : s.seq = .prelatch) :
    execLatch s = .next ((s.setCRIT true).goto (.latch 0)) := by
  simp [execLatch, hseq]

theorem execLatch_latch {s : State} {p : Fin 8} (hseq : s.seq = .latch p) : execLatch s = .next (latchStep p s) := by
  simp [execLatch, hseq]

theorem sendWordStep_data (a : Nat) (m : Fin 33) (w : Word) (s : State) (h : m.val < 32) (he : m.val % 2 = 0) :
    sendWordStep a m w s
      = (s.setDI (w.getLsbD (15 - m.val / 2))).goto (.word a ⟨m.val + 1, Nat.succ_lt_succ h⟩ w) := by
  simp [sendWordStep, h, he]

theorem sendWordStep_clock (a : Nat) (m : Fin 33) (w : Word) (s : State) (h : m.val < 32) (ho : m.val % 2 = 1) :
    sendWordStep a m w s
      = (s.setDCKI (decide (m.val % 4 = 1))).goto (.word a ⟨m.val + 1, Nat.succ_lt_succ h⟩ w) := by
  have hi : ((15 - m.val / 2) % 2 = 1) = (m.val % 4 = 1) := propext (by omega)
  simp [sendWordStep, h, ho, hi]

theorem sendWordStep_last (a : Nat) (m : Fin 33) (w : Word) (s : State) (h : ¬ m.val < 32) :
    sendWordStep a m w s = ((s.setDI false).setCRIT false).goto (afterWord s.n a) := by
  simp [sendWordStep, h]

theorem latchStep_pulse (p : Fin 8) (s : State) (h : p.val < 7) :
    latchStep p s = (s.setDI (decide (p.val % 2 = 0))).goto (.latch ⟨p.val + 1, Nat.succ_lt_succ h⟩) := by
  simp [latchStep, h]

theorem latchStep_last (p : Fin 8) (s : State) (h : ¬ p.val < 7) :
    latchStep p s = ((s.setDI false).setCRIT false).goto .idle := by
  have hp : p.val % 2 = 1 := by omega
  simp [latchStep, h, hp]

/-! ### Inversions -/

/-- Everything SEND_WORD can do (40_transmit_primitives.md R82). -/
theorem execSendWord_next {s t : State} (h : execSendWord s = .next t) :
    (∃ a, s.seq = .gap a ∧ s.inChain a ∧ t = (s.setCRIT true).goto (.word a 0 (s.memRead a))) ∨
    (∃ a m w, s.seq = .word a m w ∧ t = sendWordStep a m w s) := by
  unfold execSendWord at h
  split at h
  · rename_i a hseq
    split at h
    · rename_i ha
      cases h
      exact .inl ⟨a, hseq, ha, rfl⟩
    · cases h
  · rename_i a m w hseq
    cases h
    exact .inr ⟨a, m, w, hseq, rfl⟩
  all_goals cases h

/-- Everything LATCH can do (40_transmit_primitives.md R88). -/
theorem execLatch_next {s t : State} (h : execLatch s = .next t) :
    (s.seq = .prelatch ∧ t = (s.setCRIT true).goto (.latch 0)) ∨ (∃ p, s.seq = .latch p ∧ t = latchStep p s) := by
  unfold execLatch at h
  split at h
  · rename_i hseq
    cases h
    exact .inl ⟨hseq, rfl⟩
  · rename_i p hseq
    cases h
    exact .inr ⟨p, hseq, rfl⟩
  all_goals cases h

/-- Everything an operation can do when it answers a next state. -/
theorem exec_next {i : Instr} {s t : State} (h : exec i s = .next t) :
    (s.seq = .idle ∧ ∃ c k, t = (s.setCommands c).afterDraws k) ∨
    (s.seq = .idle ∧ ∃ idx vs k, vs.length = 12 ∧ t = (s.setSlot (slotOf s.n idx) vs).afterDraws k) ∨
    (s.seq = .idle ∧ t = s.goto (.gap 0)) ∨
    (∃ a, s.seq = .gap a ∧ s.inChain a ∧ t = (s.setCRIT true).goto (.word a 0 (s.memRead a))) ∨
    (∃ a m w, s.seq = .word a m w ∧ t = sendWordStep a m w s) ∨
    (s.seq = .prelatch ∧ t = (s.setCRIT true).goto (.latch 0)) ∨
    (∃ p, s.seq = .latch p ∧ t = latchStep p s) := by
  cases i with
  | cmdRawSet word =>
    obtain ⟨hs, rfl⟩ := takeInIdle_next h
    exact .inl ⟨hs, word, 0, rfl⟩
  | cmdSet codes =>
    obtain ⟨hs, rfl⟩ := takeInIdle_next h
    refine .inl ⟨hs, ?_⟩
    split
    · exact ⟨_, 0, rfl⟩
    · exact ⟨_, 1, rfl⟩
  | dataRawSet idx mags =>
    obtain ⟨hs, rfl⟩ := takeInIdle_next h
    exact .inr (.inl ⟨hs, idx, mags.toList, 0, rfl, rfl⟩)
  | dataSet idx vals =>
    obtain ⟨hs, rfl⟩ := takeInIdle_next h
    exact .inr (.inl ⟨hs, idx, _, _, by simp, rfl⟩)
  | refresh =>
    obtain ⟨hs, rfl⟩ := takeInIdle_next h
    exact .inr (.inr (.inl ⟨hs, rfl⟩))
  | sendWord =>
    rcases execSendWord_next h with h | h
    · exact .inr (.inr (.inr (.inl h)))
    · exact .inr (.inr (.inr (.inr (.inl h))))
  | latch =>
    rcases execLatch_next h with h | h
    · exact .inr (.inr (.inr (.inr (.inr (.inl h)))))
    · exact .inr (.inr (.inr (.inr (.inr (.inr h)))))

/-- Everything a step can do when it answers a next state: run the presented request, run the micro-operation the sequencer
stands at, or let the host move. -/
theorem step_next {s t : State} (h : step s = .next t) :
    (∃ r i, s.port = some r ∧ decodeRequest s.params.format r = .ok i ∧ exec i { s with port := none } = .next t) ∨
    (∃ i, s.port = none ∧ microOperation s.seq = some i ∧ exec i s = .next t) ∨
    (s.port = none ∧ s.seq = .idle ∧ t = hostMove s) := by
  unfold step at h
  cases hp : s.port with
  | some r =>
    cases hd : decodeRequest s.params.format r with
    | ok i =>
      simp only [currentOf, hp, hd] at h
      exact .inl ⟨r, i, rfl, hd, h⟩
    | error e => simp [currentOf, hp, hd] at h
  | none =>
    cases hm : microOperation s.seq with
    | some i =>
      simp only [currentOf, hp, hm] at h
      exact .inr (.inl ⟨i, rfl, rfl, h⟩)
    | none =>
      simp only [currentOf, hp, hm] at h
      refine .inr (.inr ⟨rfl, ?_, by cases h; rfl⟩)
      cases hs : s.seq <;> simp_all [microOperation]

/-- A step with nothing presented runs the micro-operation the sequencer stands at. -/
theorem step_micro {s : State} {i : Instr} (hp : s.port = none) (hm : microOperation s.seq = some i) :
    step s = exec i s := by
  simp [step, currentOf, hp, hm]

/-- A step with a presented request runs it. -/
theorem step_request {s : State} {r : Request} {i : Instr} (hp : s.port = some r)
    (hd : decodeRequest s.params.format r = .ok i) :
    step s = exec i { s with port := none } := by
  simp [step, currentOf, hp, hd]

end Sys2Proof.Machine
end

