-- ==== Sys2Proof/Laws/Wire.lean ====
section
/-!
SUPPORT. The laws of what is observed on the wire: levels, samples and counts along an appended trace.
-/

namespace Sys2Proof.Machine

theorem dataLevelFrom_append (d : Level) (t u : List Event) :
    dataLevelFrom d (t ++ u) = dataLevelFrom (dataLevelFrom d t) u := by
  induction t generalizing d with
  | nil => rfl
  | cons e t ih => cases e <;> simp [dataLevelFrom, ih]

theorem clockLevelFrom_append (c : Level) (t u : List Event) :
    clockLevelFrom c (t ++ u) = clockLevelFrom (clockLevelFrom c t) u := by
  induction t generalizing c with
  | nil => rfl
  | cons e t ih => cases e <;> simp [clockLevelFrom, ih]

theorem sampledFrom_append (d : Level) (t u : List Event) :
    sampledFrom d (t ++ u) = sampledFrom d t ++ sampledFrom (dataLevelFrom d t) u := by
  induction t generalizing d with
  | nil => rfl
  | cons e t ih => cases e <;> simp [sampledFrom, dataLevelFrom, ih]

@[simp] theorem dataLevelFrom_dataEdge (a b : Level) : dataLevelFrom a (dataEdge a b) = b := by
  cases a <;> cases b <;> rfl

@[simp] theorem clockLevelFrom_clockEdge (a b : Level) : clockLevelFrom a (clockEdge a b) = b := by
  cases a <;> cases b <;> rfl

@[simp] theorem clockLevelFrom_dataEdge (c a b : Level) : clockLevelFrom c (dataEdge a b) = c := by
  cases a <;> cases b <;> rfl

@[simp] theorem dataLevelFrom_clockEdge (d a b : Level) : dataLevelFrom d (clockEdge a b) = d := by
  cases a <;> cases b <;> rfl

@[simp] theorem sampledFrom_dataEdge (d a b : Level) : sampledFrom d (dataEdge a b) = [] := by
  cases a <;> cases b <;> rfl

/-- Several steps in a row, split in two runs. -/
theorem steps_add (j k : Nat) (s t : State) (h : steps j s = .next t) : steps (j + k) s = steps k t := by
  induction j generalizing s with
  | zero =>
    cases h
    rw [Nat.zero_add]
  | succ j ih =>
    rw [Nat.add_right_comm, steps]
    rw [steps] at h
    split at h
    · rename_i u hu
      exact ih u h
    · cases h
    · cases h

end Sys2Proof.Machine
end

