-- ==== Sys2Proof/Tests/Slice0.lean ====
section
/-!
SUPPORT. The model's own tests. Part 1: expected values copied from spec/95_test_vectors.md and the rules named in each comment.
Part 2: for every statement with hypotheses, a concrete state and operands that meet them together.
-/

namespace Sys2Proof.Tests

open Sys2Proof Sys2Proof.Machine

/-! ## Helpers -/

/-- The next state of an outcome, if it is one. -/
def nextOf (o : Host.Outcome State Fault Refusal) : Option State :=
  match o with
  | .next s => some s
  | .fault _ => none
  | .refused _ => none

/-- The refusal of an outcome, if it is one. -/
def refusalOf (o : Host.Outcome State Fault Refusal) : Option Refusal :=
  match o with
  | .next _ => none
  | .fault _ => none
  | .refused r => some r

/-- A fresh chain of two slots. -/
def two : State := State.initial defaultParams 2

/-- A chain of one slot in which REFRESH is presented. -/
def presented : State := { State.reset with port := some ⟨3, 5⟩ }

/-- A chain of two slots inside a REFRESH, at position `p`. -/
def at_ (p : Seq) : State := { two with seq := p, crit := criticalAt p, di := dataLevelAt p, dcki := clockLevelAt p }

/-- The same value on all twelve channels. -/
def all12 {α : Type} (v : α) : Channels α := Channels.ofIndex fun _ => v

/-! ## Part 1: vectors of the spec -/

/-! ### Well-formedness: the check refuses an ill-formed term (30_encoding.md R58) -/

theorem test_wf_idx_too_large : (Instr.dataRawSet 2147483648 (all12 0)).wellFormed = false := by decide
theorem test_wf_idx_too_small : (Instr.dataSet (-2147483649) ⟨binary32, (all12 0)⟩).wellFormed = false := by decide
theorem test_wf_idx_bounds :
    (Instr.dataRawSet 2147483647 (all12 0)).wellFormed = true ∧
    (Instr.dataSet (-2147483648) ⟨binary32, (all12 0)⟩).wellFormed = true := by decide

/-! ### Decoding, words written out from the spec -/

/-- V3: CMD_RAW_SET 0xFFFF. -/
theorem test_decode_cmdRawSet : decodeRequest binary32 ⟨19, 0x7FFF9⟩ = .ok (.cmdRawSet 0xFFFF) := by decide
/-- V2: SLOW, D16, DIV16, PWM, EXT, LED, FREE, REPEAT. -/
theorem test_decode_cmdSet : decodeRequest binary32 ⟨67, 0x00000000800201802⟩ = .ok (.cmdSet ⟨0, 3, 4, 0, 1, 0, 0, 0⟩) := by decide
/-- V7: index −1 and twelve zeros. -/
theorem test_decode_dataRawSet :
    decodeRequest binary32 ⟨227, 0x0000000000000000000000000000000000000000000000007FFFFFFFB⟩ = .ok (.dataRawSet (-1) (all12 0)) := by
  decide
/-- V8: DATA_SET 1; 0.5, 0.0 × 11. -/
theorem test_decode_dataSet :
    decodeRequest binary32 ⟨419, 0x00000000000000000000000000000000000000000000000000000000000000000000000000000000000000001F80000000000000C⟩
      = .ok (.dataSet 1 ⟨binary32, { all12 0 with g3a := 0x3F000000 }⟩) := by decide +kernel
/-- R57 in binary64: DATA_SET 1; 0.5, 0.0 × 11 has 803 bits, `val_0` at req[98:35]; it is no request of a binary32 block. -/
theorem test_decode_dataSet_double :
    decodeRequest binary64 ⟨803, 0x3FE0000000000000 <<< 35 ||| 0xC⟩
      = .ok (.dataSet 1 ⟨binary64, { all12 0 with g3a := 0x3FE0000000000000 }⟩) ∧
    decodeRequest binary32 ⟨803, 0x3FE0000000000000 <<< 35 ||| 0xC⟩ = .error (.wrongLength 4 803) := by decide +kernel
/-- R53: op 101, no operands. -/
theorem test_decode_refresh : decodeRequest binary32 ⟨3, 5⟩ = .ok .refresh := by decide
/-- R65: phase 01 SEND_WORD, 10 LATCH, 00 and 11 none. -/
theorem test_decode_phase :
    decodePhase 1 = .ok .sendWord ∧ decodePhase 2 = .ok .latch ∧
    decodePhase 0 = .error (.noMicroOperation 0) ∧ decodePhase 3 = .error (.noMicroOperation 3) := by decide
/-- V9, R59: reserved ops, and lengths that are not the format's. -/
theorem test_decode_rejects :
    decodeRequest binary32 ⟨3, 0⟩ = .error (.reservedOp 0) ∧ decodeRequest binary32 ⟨3, 6⟩ = .error (.reservedOp 6) ∧
    decodeRequest binary32 ⟨3, 7⟩ = .error (.reservedOp 7) ∧ decodeRequest binary32 ⟨3, 1⟩ = .error (.wrongLength 1 3) ∧
    decodeRequest binary32 ⟨20, 0x03801⟩ = .error (.wrongLength 1 20) := by decide
/-- V3, V2: the encoder gives the spec's vectors. -/
theorem test_encode :
    encode (.cmdRawSet 0x0100) = .request ⟨19, 0x00801⟩ ∧
    encode (.cmdSet ⟨1, 3, 7, 1, 1, 1, 1, 1⟩) = .request ⟨67, 0x0080808080838180A⟩ := by decide
/-- V7: the encoder gives the spec's vector. -/
theorem test_encode_dataRawSet :
    encode (.dataRawSet 2 ⟨1, 2, 3, 4, 5, 6, 7, 8, 9, 10, 11, 12⟩)
      = .request ⟨227, 0x000600058005000480040003800300028002000180010000800000013⟩ := by decide

/-! ### The opcode table's numbering -/

theorem test_table_rows :
    decodeTableWord 24 1 = some (.cmdRawSet 0) ∧ decodeTableWord 72 2 = some (.cmdSet ⟨0, 0, 0, 0, 0, 0, 0, 0⟩) ∧
    decodeTableWord 232 3 = some (.dataRawSet 0 (all12 0)) ∧ decodeTableWord 8 5 = some .refresh ∧
    decodeTableWord 8 1 = some .sendWord ∧ decodeTableWord 8 2 = some .latch ∧ decodeTableWord 8 6 = none := by decide
theorem test_table_row_dataSet : decodeTableWord 424 4 = some (.dataSet 0 ⟨binary32, (all12 0)⟩) := by decide +kernel
/-- Each row's first word runs as the first instruction after reset. -/
theorem test_fetch_runs :
    step (State.reset.withFetchWord 24 1) = exec (.cmdRawSet 0) State.reset ∧
    step (State.reset.withFetchWord 72 2) = exec (.cmdSet ⟨0, 0, 0, 0, 0, 0, 0, 0⟩) State.reset ∧
    step (State.reset.withFetchWord 232 3) = exec (.dataRawSet 0 (all12 0)) State.reset ∧
    step (State.reset.withFetchWord 424 4) = exec (.dataSet 0 ⟨binary32, (all12 0)⟩) State.reset ∧
    step (State.reset.withFetchWord 8 5) = exec .refresh State.reset ∧
    step (State.reset.withFetchWord 8 1) = exec .sendWord (State.reset.withFetchWord 8 1) ∧
    step (State.reset.withFetchWord 8 2) = exec .latch (State.reset.withFetchWord 8 2) :=
  ⟨rfl, rfl, rfl, rfl, rfl, rfl, rfl⟩

/-! ### Slot selection, packing, scaling -/

/-- V1. -/
theorem test_slots :
    [(1 : Int), 0, 2, -1].map (slotOf 1) = [0, 0, 0, 0] ∧
    [(1 : Int), 2, 3, 4, 0, -2147483648, 2147483647].map (slotOf 3) = [0, 1, 2, 0, 0, 0, 0] := by decide
/-- V2, R116. -/
theorem test_pack :
    pack cmdLayout ⟨0, 2, 5, 1, 1, 0, 1, 1⟩ = 0x02BB ∧ pack cmdLayout ⟨0, 0, 7, 0, 0, 0, 0, 0⟩ = 0x00E0 ∧
    pack cmdLayout ⟨1, 3, 7, 1, 1, 1, 1, 1⟩ = 0x07FF := by decide
/-- V2: unpacking 0x02BB. -/
theorem test_unpack : cmdFields.map (fun f => (unpackField cmdLayout f 0x02BB).toNat) = [0, 2, 5, 1, 1, 0, 1, 1] := by decide
/-- R14: group 3 A is channel 0, group 0 C channel 11. -/
theorem test_channels : channelIndex 3 0 = 0 ∧ channelIndex 2 1 = 4 ∧ channelIndex 0 2 = 11 := by decide
/-- V8: 1.0, 0.25, 0.1, 2.0, 1.5 at the four depths. -/
theorem test_scale :
    [255, 4095, 16383, 65535].map (scaleOf binary32 0x3F800000) = [some 255, some 4095, some 16383, some 65535] ∧
    [255, 4095, 16383, 65535].map (scaleOf binary32 0x3E800000) = [some 63, some 1023, some 4095, some 16383] ∧
    [255, 4095, 16383, 65535].map (scaleOf binary32 0x3DCCCCCD) = [some 25, some 409, some 1638, some 6553] ∧
    [255, 4095, 16383, 65535].map (scaleOf binary32 0x40000000) = [some 510, some 8190, some 32766, none] ∧
    [255, 4095, 16383, 65535].map (scaleOf binary32 0x3FC00000) = [some 382, some 6142, some 24574, none] := by decide
/-- V8: 1.0, 0.1, 2.0 at the four depths in binary64. -/
theorem test_scale_double :
    [255, 4095, 16383, 65535].map (scaleOf binary64 0x3FF0000000000000) = [some 255, some 4095, some 16383, some 65535] ∧
    [255, 4095, 16383, 65535].map (scaleOf binary64 0x3FB999999999999A) = [some 25, some 409, some 1638, some 6553] ∧
    [255, 4095, 16383, 65535].map (scaleOf binary64 0x4000000000000000)
      = [some 510, some 8190, some 32766, none] := by decide +kernel
/-- V8, R130: −0.001, −0.5, −0.0, a subnormal, NaN, the infinities. -/
theorem test_scale_corners :
    [255, 4095, 16383, 65535].map (scaleOf binary32 0xBA83126F) = [some 0, none, none, none] ∧
    scaleOf binary32 0xBF000000 255 = none ∧ scaleOf binary32 0x80000000 65535 = some 0 ∧
    scaleOf binary32 0x00000001 65535 = some 0 ∧ scaleOf binary32 0x7FC00000 255 = none ∧
    scaleOf binary32 0x7F800000 255 = none ∧ scaleOf binary32 0xFF800000 255 = none := by decide

/-! ### One step of each operation -/

/-- V3: both slots hold the word, bits 15:11 kept. -/
theorem test_cmdRawSet :
    (nextOf (exec (.cmdRawSet 0xFFFF) two)).map (fun s => [s.cmd 0, s.cmd 1, s.gs 0 0, s.gs 1 11])
      = some [0xFFFF, 0xFFFF, 0, 0] := by decide
/-- R111 (e): the word 0x0000 restores the reset value. -/
theorem test_cmdRawSet_zero : exec (.cmdRawSet 0) { two with chain := [(0, 7), (13, 7)] } = .next two := by rfl
/-- V2: FAST, D16 stores 0x0700 in every slot. -/
theorem test_cmdSet :
    (nextOf (exec (.cmdSet ⟨1, 3, 0, 0, 0, 0, 0, 0⟩) two)).map (fun s => [s.cmd 0, s.cmd 1]) = some [0x0700, 0x0700] := by decide
/-- V9, R114: an out-of-range depth is accepted and makes one draw. -/
theorem test_cmdSet_draws : (nextOf (exec (.cmdSet ⟨0, 4, 0, 0, 0, 0, 0, 0⟩) two)).map (·.draws) = some 1 := by decide
/-- V7: slot 1 of two takes 1 … 12, slot 0 is untouched. -/
theorem test_dataRawSet :
    (nextOf (exec (.dataRawSet 2 ⟨1, 2, 3, 4, 5, 6, 7, 8, 9, 10, 11, 12⟩) two)).map
      (fun s => ((List.range 12).map (s.gs 1), (List.range 12).map (s.gs 0), s.cmd 1))
      = some ([1, 2, 3, 4, 5, 6, 7, 8, 9, 10, 11, 12], List.replicate 12 0, 0) := by decide
/-- V7: index 3 of a chain of two is clamped to slot 0. -/
theorem test_dataRawSet_clamped :
    (nextOf (exec (.dataRawSet 3 (all12 0xFFFF)) two)).map (fun s => [s.gs 0 0, s.gs 0 11, s.gs 1 0])
      = some [0xFFFF, 0xFFFF, 0] := by decide
/-- V8: with the command word 0x0100 (12-bit) 0.5 is stored as 2047. -/
theorem test_dataSet :
    (nextOf (exec (.dataSet 1 ⟨binary32, { all12 0 with g3a := 0x3F000000 }⟩) { two with chain := [(0, 0x0100), (13, 0x0100)] })).map
      (fun s => [s.gs 0 0, s.gs 0 1, s.gs 1 0, s.cmd 0]) = some [2047, 0, 0, 0x0100] := by decide
/-- R127: two channels out of range make two draws; the channel between them is stored exactly. -/
theorem test_dataSet_draws :
    (nextOf (exec (.dataSet 1 ⟨binary32, { all12 0 with g3a := 0xBF000000, g3b := 0x3F800000, g3c := 0x7FC00000 }⟩) two)).map (·.draws)
      = some 2 := by decide
/-- R103, first row; R44: outside IDLE it is refused. -/
theorem test_refresh :
    (nextOf (exec .refresh two)).map (·.seq) = some (.gap 0) ∧ refusalOf (exec .refresh (at_ (.gap 3))) = some .busy := by decide
/-- R82: the entry, and m = 1 of the word 0x8001 (V4). -/
theorem test_sendWord :
    (nextOf (exec .sendWord (at_ (.gap 0)))).map (fun s => (s.seq, s.crit)) = some (.word 0 0 0, true) ∧
    (nextOf (exec .sendWord (at_ (.word 0 1 0x8001)))).map (fun s => (s.trace, s.dcki)) = some ([.cUp], true) := by decide
/-- R82: m = 32 of the last word of a chain of two closes with D-, releases CRIT and goes to PRELATCH. -/
theorem test_sendWord_last :
    (nextOf (exec .sendWord (at_ (.word 25 32 0x8001)))).map (fun s => (s.trace, s.crit, s.seq))
      = some ([.dDown], false, .prelatch) := by decide
/-- R88: p = 0 and p = 7. -/
theorem test_latch :
    (nextOf (exec .latch (at_ (.latch 0)))).map (fun s => (s.trace, s.seq)) = some ([.dUp], .latch 1) ∧
    (nextOf (exec .latch (at_ (.latch 7)))).map (fun s => (s.trace, s.crit, s.seq)) = some ([.dDown], false, .idle) := by decide
/-- R31: an address outside CHAIN has no word. -/
theorem test_sendWord_outside : exec .sendWord (at_ (.gap 26)) = .fault (.noSuchWord 26) := by rfl

/-! ### What is on the wire -/

/-- V4: 0xA5C3. -/
theorem test_edges_A5C3 :
    edges 0xA5C3 = [.dUp, .cUp, .dDown, .cDown, .dUp, .cUp, .dDown, .cDown, .cUp, .dUp, .cDown, .dDown, .cUp, .dUp, .cDown,
      .cUp, .cDown, .dDown, .cUp, .cDown, .cUp, .cDown, .dUp, .cUp, .cDown, .dDown] := by decide
/-- V4: 0xA5C3 sampled. -/
theorem test_sampled_A5C3 :
    sampled (edges 0xA5C3)
      = [true, false, true, false, false, true, false, true, true, true, false, false, false, false, true, true] := by decide
/-- V6: the counts of a chain of one with every word zero, and the steps of one REFRESH. -/
theorem test_counts : (frameEdges (List.replicate 13 0)).length = 216 ∧ refreshSteps 3 = 442 * 3 + 10 := by decide +kernel

/-! ### Refusals (V9) -/

theorem test_refused_reserved :
    refusalOf (step { two with port := some ⟨3, 6⟩ }) = some (.badRequest (.reservedOp 6)) := by decide
theorem test_refused_busy : refusalOf (step { at_ (.gap 3) with port := some ⟨3, 5⟩ }) = some .busy := by decide
theorem test_refused_construction : State.construct defaultParams 0 = .refused (.badChainLength 0) := by
  simp [State.construct]

/-! ## Part 2: witnesses of hypotheses -/

/-- The invariant at a position of a chain of one with a zero buffer and nothing on the trace. -/
theorem invariant_at (p : Seq) (hr : seqInRange { State.reset with seq := p, crit := criticalAt p })
    (hd : dataLevelAt p = false) (hc : clockLevelAt p = false) :
    Invariant { State.reset with seq := p, crit := criticalAt p } where
  parametersMeet := (by decide : paramsOk defaultParams = true)
  canonical := rfl
  unusedZero := fun _ _ => rfl
  lengthInRange := ⟨Nat.le_refl 1, Nat.le_add_left 1 _⟩
  commandsEqual := fun _ _ => rfl
  position := hr
  dataLine := hd.symm
  clockLine := hc.symm
  critical := rfl
  levelsOfTrace := ⟨rfl, rfl⟩

theorem witness_wellFormed : (Instr.dataSet (-2147483648) ⟨binary32, (all12 0x7FC00000)⟩).WellFormed := by decide
theorem witness_idxInField : idxInField (-2147483648) = true ∧ idxInField 2147483647 = true := by decide
theorem witness_decode : decode binary32 (.phase 2) = .ok .latch ∧ decode binary32 (.request ⟨3, 5⟩) = .ok .refresh := by decide
theorem witness_rejected_request :
    (opOf ⟨3, 7⟩).toNat ∈ [0, 6, 7] ∧ (opOf ⟨20, 1⟩).toNat ∈ [1, 2, 3, 4, 5] ∧ ¬ ∃ i, decodeRequest binary32 ⟨20, 1⟩ = .ok i := by
  refine ⟨by decide, by decide, ?_⟩
  rintro ⟨i, h⟩
  rw [show decodeRequest binary32 ⟨20, 1⟩ = .error (.wrongLength 1 20) by decide] at h
  cases h
theorem witness_presented : presented.port = some ⟨3, 5⟩ ∧ decodeRequest binary32 ⟨3, 5⟩ = .ok .refresh ∧ 1 ≤ presented.n ∧
    presented.seq = .idle ∧ presented.di = false ∧ presented.dcki = false ∧ presented.crit = false := by decide
theorem witness_sequenced :
    ((at_ (.gap 25)).port = none ∧ (at_ (.gap 25)).seq = .gap 25) ∧
    ((at_ (.word 25 32 1)).port = none ∧ (at_ (.word 25 32 1)).seq = .word 25 32 1) ∧
    ((at_ .prelatch).port = none ∧ (at_ .prelatch).seq = .prelatch) ∧
    ((at_ (.latch 7)).port = none ∧ (at_ (.latch 7)).seq = .latch 7) ∧
    decodePhase (phaseOf (.latch 0)) = .ok .latch := by decide
theorem witness_script :
    let s : State := { two with script := [⟨3, 5⟩, ⟨19, 0x03801⟩] }
    s.port = none ∧ s.seq = .idle ∧ s.script = ⟨3, 5⟩ :: [⟨19, 0x03801⟩] ∧ decodeRequest binary32 ⟨3, 5⟩ = .ok .refresh := by decide
theorem witness_host_holds : two.port = none ∧ two.seq = .idle ∧ two.script = [] := by decide
theorem witness_busy :
    ({ at_ .prelatch with port := some ⟨3, 5⟩ } : State).port = some ⟨3, 5⟩ ∧
    ({ at_ .prelatch with port := some ⟨3, 5⟩ } : State).seq ≠ .idle ∧ decodeRequest binary32 ⟨3, 5⟩ = .ok .refresh := by decide
theorem witness_busy_operation :
    (at_ (.latch 0)).seq ≠ .idle ∧ Instr.cmdRawSet 0 ≠ .sendWord ∧ Instr.cmdRawSet 0 ≠ .latch := by decide
theorem witness_nonRequest :
    ({ two with port := some ⟨3, 0⟩ } : State).port = some ⟨3, 0⟩ ∧ decodeRequest binary32 ⟨3, 0⟩ = .error (.reservedOp 0) := by decide
theorem witness_other_operation :
    ∃ t, exec (.dataRawSet 1 (all12 1)) two = .next t ∧ exec .refresh two = .next { two with seq := .gap 0 } :=
  ⟨_, rfl, rfl⟩
theorem witness_chain_length : 1 ≤ 1 ∧ 1 ≤ Config.nMax := ⟨Nat.le_refl 1, Nat.le_add_left 1 _⟩
theorem witness_chain_length_outside : 0 < 1 ∧ Config.nMax < Config.nMax + 1 := ⟨Nat.one_pos, Nat.lt_succ_self _⟩
theorem witness_steps : (∃ t, step presented = .next t) ∧ ∃ t, exec .refresh two = .next t := ⟨⟨_, rfl⟩, ⟨_, rfl⟩⟩
theorem witness_setter : two.seq = .idle ∧ two.chain.wf = true ∧ 1 < two.n := by decide
theorem witness_setter_full :
    let s : State := { two with chain := [(0, 0xFFFF), (13, 0xFFFF), (25, 9)] }
    s.seq = .idle ∧ s.chain.wf = true ∧ s.cmd 1 = s.cmd 0 := by decide
theorem witness_codes : codesInRange cmdLayout ⟨1, 3, 7, 1, 1, 1, 1, 1⟩ = true ∧ codesInRange cmdLayout ⟨0, 4, 0, 0, 0, 0, 0, 0⟩ = false := by decide
theorem witness_layout :
    layoutOk cmdLayout = true ∧ layoutOk { cmdLayout with depth := ⟨⟨13, 3⟩, [7, 4, 0, 2]⟩, oneshot := ⟨⟨8, 2⟩, [3, 1]⟩ } = true := by decide
theorem witness_pack_injective :
    codesInRange cmdLayout ⟨0, 0, 0, 0, 0, 0, 0, 0⟩ = true ∧
    pack cmdLayout ⟨0, 0, 0, 0, 0, 0, 0, 0⟩ = pack cmdLayout ⟨0, 0, 0, 0, 0, 0, 0, 0⟩ := by decide
theorem witness_low_word : (0x07FF : Word).toNat < 2048 := by decide
theorem witness_command_steps :
    (∃ t, exec (.cmdRawSet 7) two = .next t) ∧ (∃ t, exec (.cmdSet ⟨0, 4, 0, 0, 0, 0, 0, 0⟩) two = .next t) ∧
    broadcast two ∧ ∃ t, exec (.dataRawSet 2 (all12 7)) two = .next t :=
  ⟨⟨_, rfl⟩, ⟨_, rfl⟩, fun _ _ => rfl, ⟨_, rfl⟩⟩
theorem witness_index :
    ((1 : Int) ≤ 2 ∧ (2 : Int) ≤ (two.n : Int)) ∧ ((0 : Int) ≤ 0 ∨ ((two.n : Int) < 0)) ∧
    ((3 : Int) ≤ 0 ∨ ((two.n : Int) < 3)) := by decide
theorem witness_scaled :
    (Values.mk binary32 (all12 0x3F800000)).patterns[11]? = some 0x3F800000 ∧ two.scaled binary32 0x3F800000 = some 255 ∧
    (Values.mk binary64 (all12 0x3FF0000000000000)).patterns[11]? = some 0x3FF0000000000000 ∧
    two.scaled binary64 0x3FF0000000000000 = some 255 := by decide
theorem witness_drawn :
    (Values.mk binary32 (all12 0xBF000000)).patterns[11]? = some 0xBF000000 ∧ two.scaled binary32 0xBF000000 = none := by decide
/-- A chain of two slots of a binary64 block. -/
def twoDouble : State := { two with params := ⟨cmdLayout, binary64⟩ }
/-- The request DATA_SET 1; 0.5, 0.0 × 11 in each format. -/
def halfSingle : Request := ⟨419, 0x3F000000 <<< 35 ||| 0xC⟩
def halfDouble : Request := ⟨803, 0x3FE0000000000000 <<< 35 ||| 0xC⟩
theorem witness_presented_dataSet :
    (let s : State := { two with port := some halfSingle }
     s.port = some halfSingle ∧ halfSingle.bits.extractLsb' 0 3 = 4#3 ∧ s.seq = .idle ∧ s.chain.wf = true ∧
     s.params.format = binary32 ∧ halfSingle.len = 419 ∧
     s.scaled binary32 (halfSingle.bits.extractLsb' 35 32).toNat = some 127) ∧
    (let s : State := { twoDouble with port := some halfDouble }
     s.port = some halfDouble ∧ halfDouble.bits.extractLsb' 0 3 = 4#3 ∧ s.seq = .idle ∧ s.chain.wf = true ∧
     s.params.format = binary64 ∧ halfDouble.len = 803 ∧
     s.scaled binary64 (halfDouble.bits.extractLsb' 35 64).toNat = some 127) := by decide +kernel
theorem witness_presented_dataRawSet :
    let r : Request := ⟨227, 0x000600058005000480040003800300028002000180010000800000013⟩
    let s : State := { two with port := some r }
    s.port = some r ∧ r.len = 227 ∧ r.bits.extractLsb' 0 3 = 3#3 ∧ s.seq = .idle ∧ s.chain.wf = true := by decide
theorem witness_format :
    (Instr.dataSet 1 ⟨binary64, (all12 0)⟩).ofFormat binary64 = true ∧ (Instr.dataSet 1 ⟨binary32, (all12 0)⟩).ofFormat binary32 = true ∧
    (Instr.dataSet 1 ⟨binary64, (all12 0)⟩).ofFormat binary32 = false := by decide
theorem witness_fields :
    decodeRequest binary32 ⟨19, 0x7FFF9⟩ = .ok (.cmdRawSet 0xFFFF) ∧
    decodeRequest binary32 halfSingle = .ok (.dataSet 1 ⟨binary32, { all12 0 with g3a := 0x3F000000 }⟩) ∧
    decodeRequest binary64 halfDouble = .ok (.dataSet 1 ⟨binary64, { all12 0 with g3a := 0x3FE0000000000000 }⟩) := by
  decide +kernel
theorem witness_not_finite : fpValue (fpOfBits binary32 0x7FC00000) = none := by
  rw [show fpOfBits binary32 0x7FC00000 = .nan by decide]
  rfl
theorem witness_params : paramsOk defaultParams = true ∧ paramsOk ⟨cmdLayout, binary64⟩ = true ∧ paramsOk ⟨cmdLayout, ⟨5, 15⟩⟩ = true := by decide
theorem witness_unrecognized_depth :
    (let l : Layout := { cmdLayout with depth := ⟨⟨11, 3⟩, [4, 5, 6, 2]⟩ }
     layoutOk l = true ∧ (unpackField l .depth 0x3800).toNat ∉ l.depth.codes ∧ biasOf l 0x3800 = 255) := by decide
/-- The depths by their codes in the default table, and in another. -/
theorem witness_depth_codes :
    (cmdLayout.depth.codes.Nodup ∧ cmdLayout.depth.codes[3]? = some (unpackField cmdLayout .depth 0x0300).toNat) ∧
    (let l : Layout := { cmdLayout with depth := ⟨⟨13, 3⟩, [7, 4, 0, 2]⟩ }
     let e : CmdCodes := ⟨1, 4, 0, 0, 0, 0, 0, 0⟩
     layoutOk l = true ∧ codesInRange l e = true ∧ l.depth.codes[1]? = some e.depth.toNat ∧
     pack l e = 0x8400 ∧ biasOf l (pack l e) = 4095 ∧ codesInRange l ⟨1, 3, 0, 0, 0, 0, 0, 0⟩ = false) := by decide
theorem witness_representable : representable binary32 (magnitude 1 0) :=
  ⟨1, 0, by decide, by decide, rfl⟩
theorem witness_tie : 2 * (0x1000001 % 2 ^ excessBits binary32 0x1000001 0) = 2 ^ excessBits binary32 0x1000001 0 := by decide
/-- 1.0, 0.5 and 0.0 in binary32. -/
theorem value_one : fpValue (fpOfBits binary32 0x3F800000) = some 1 := by
  rw [show fpOfBits binary32 0x3F800000 = .finite false 8388608 (-23) by decide]
  norm_num [fpValue, magnitude]
theorem value_half : fpValue (fpOfBits binary32 0x3F000000) = some (1 / 2) := by
  rw [show fpOfBits binary32 0x3F000000 = .finite false 8388608 (-24) by decide]
  norm_num [fpValue, magnitude]
theorem value_zero : fpValue (fpOfBits binary32 0) = some 0 := by
  rw [show fpOfBits binary32 0 = .finite false 0 (-149) by decide]
  norm_num [fpValue, magnitude]
theorem witness_depths :
    formatOk binary32 = true ∧
    settingOf cmdLayout .depth (({ two with chain := [(0, 0x0300), (13, 0x0300)] } : State).cmd 0) = 3 ∧
    (∀ v ∈ (Values.mk binary32 (all12 0x3F800000)).patterns, v = 0x3F800000) ∧
    settingOf cmdLayout .depth (two.cmd 0) = 0 ∧ (∀ v ∈ (Values.mk binary32 (all12 0)).patterns, v = 0) ∧
    settingOf cmdLayout .depth (({ two with chain := [(0, 0x0100), (13, 0x0100)] } : State).cmd 0) = 1 ∧
    (Values.mk binary32 (all12 0x3F000000)).patterns[11]? = some 0x3F000000 := by decide
theorem witness_scaled_values :
    (Values.mk binary32 (all12 0x3F800000)).patterns.map (two.scaled binary32) = (all12 (255 : Word)).toList.map some := by
  decide +kernel
/-- DATA_SET runs in IDLE. -/
theorem dataSet_runs {s : State} (h : s.seq = .idle) (idx : Int) (vals : Values) :
    ∃ t, exec (.dataSet idx vals) s = .next t := by
  show ∃ t, execDataSet idx vals s = .next t
  unfold execDataSet
  exact ⟨_, takeInIdle_idle h _⟩
theorem witness_same_depth :
    let s : State := { two with chain := [(0, 0x0100), (5, 9), (13, 0x0100)] }
    let s' : State := { two with chain := [(0, 0x0101), (13, 0x0101)] }
    s.chain.wf = true ∧ s'.chain.wf = true ∧ s.n = s'.n ∧ s.params = s'.params ∧ s.draws = s'.draws ∧
    unpackField cmdLayout .depth (s.cmd 0) = unpackField cmdLayout .depth (s'.cmd 0) ∧
    (∃ t, exec (.dataSet 2 ⟨binary32, (all12 0x3F000000)⟩) s = .next t) ∧ ∃ t, exec (.dataSet 2 ⟨binary32, (all12 0x3F000000)⟩) s' = .next t :=
  ⟨rfl, rfl, rfl, rfl, rfl, by decide, dataSet_runs rfl _ _, dataSet_runs rfl _ _⟩
theorem all_scaled : ∀ v ∈ (Values.mk binary32 (all12 0x3F800000)).patterns, (two.scaled binary32 v).isSome = true := by
  have hs : two.scaled binary32 0x3F800000 = some 255 := by decide
  intro v hv
  obtain rfl : v = 0x3F800000 := by
    simpa [Values.patterns, all12, Channels.ofIndex, Channels.toList, FpFormat.width, binary32] using hv
  rw [hs]
  rfl
theorem witness_idempotent :
    two.chain.wf = true ∧ (∃ t, exec (.cmdRawSet 7) two = .next t) ∧
    (∃ t, exec (.cmdSet ⟨1, 3, 0, 0, 0, 0, 0, 0⟩) two = .next t) ∧ (∃ t, exec (.dataRawSet 2 (all12 7)) two = .next t) ∧
    (∀ v ∈ (Values.mk binary32 (all12 0x3F800000)).patterns, (two.scaled binary32 v).isSome = true) ∧
    ∃ t, exec (.dataSet 2 ⟨binary32, (all12 0x3F800000)⟩) two = .next t :=
  ⟨rfl, ⟨_, rfl⟩, ⟨_, rfl⟩, ⟨_, rfl⟩, all_scaled, dataSet_runs rfl _ _⟩
theorem witness_sendWord :
    (at_ (.gap 25)).port = none ∧ (at_ (.gap 25)).seq = .gap 25 ∧ (at_ (.gap 25)).inChain 25 ∧
    (at_ (.gap 25)).di = false ∧ (at_ (.gap 25)).dcki = false ∧ (at_ (.gap 25)).crit = false := by decide
theorem witness_sendWord_steps :
    ((at_ (.word 0 30 1)).seq = .word 0 30 1 ∧ 30 < 32 ∧ 30 % 2 = 0) ∧
    ((at_ (.word 0 31 1)).seq = .word 0 31 1 ∧ 31 < 32 ∧ 31 % 2 = 1) ∧ (at_ (.word 25 32 1)).seq = .word 25 32 1 := by decide
theorem witness_latch :
    (at_ .prelatch).port = none ∧ (at_ .prelatch).seq = .prelatch ∧ (at_ .prelatch).di = false ∧
    (at_ .prelatch).dcki = false ∧ (at_ .prelatch).crit = false := by decide
theorem witness_latch_steps : (at_ (.latch 6)).seq = .latch 6 ∧ 6 < 7 ∧ (at_ (.latch 7)).seq = .latch 7 := by decide
theorem witness_not_sequenced :
    microOperation two.seq ≠ some .sendWord ∧ microOperation two.seq ≠ some .latch ∧
    exec .sendWord (at_ (.gap 26)) = .fault (.noSuchWord 26) := ⟨by decide, by decide, rfl⟩
theorem witness_pin_writes : (true : Level) ≠ two.di ∧ (false : Level) = two.dcki := by decide
theorem witness_infix :
    [Event.dDown, Event.dUp] <:+: [(0x0001 : Word), 0x8000].flatMap edges ∧ [Event.dDown, Event.dUp].all isData = true := by decide
theorem witness_frame_end :
    frameEdges [0x0001] = (edges 0x0001).take 17 ++ (.dDown :: latchSymbol) ∧
    (.dDown :: latchSymbol).all isData = true ∧ (edges 0x0001).take 17 = (edges 0x0001).take 16 ++ [Event.cDown] := by decide
theorem witness_in_refresh : (∃ t, step (at_ (.gap 3)) = .next t) ∧ (at_ (.gap 3)).seq ≠ .idle :=
  ⟨⟨_, rfl⟩, by decide⟩
theorem witness_reset_invariant : Invariant State.reset := invariant_at .idle trivial rfl rfl
theorem witness_invariant_step : ∃ t, Invariant State.reset ∧ step State.reset = .next t :=
  ⟨_, witness_reset_invariant, rfl⟩
theorem witness_construct : ∃ t, State.construct defaultParams 1 = .next t :=
  ⟨State.initial defaultParams 1, by simp [State.construct, Config.nMax]⟩
theorem witness_run : steps 3 { State.initial defaultParams 1 with script := [⟨3, 5⟩] }
    = .next { State.initial defaultParams 1 with seq := .word 0 0 0, crit := true } := by rfl
theorem witness_nothing_presented : Invariant State.reset ∧ State.reset.port = none := ⟨witness_reset_invariant, rfl⟩
theorem witness_critical :
    Invariant { State.reset with seq := .word 12 0 0, crit := true } ∧
    Invariant { State.reset with seq := .latch 0, crit := true } :=
  ⟨invariant_at (.word 12 0 0) ⟨by decide, rfl⟩ rfl rfl, invariant_at (.latch 0) trivial rfl rfl⟩
theorem witness_inside_refresh :
    let s : State := { State.reset with seq := .gap 0, crit := false }
    Invariant s ∧ s.port = none ∧ s.seq ≠ .idle :=
  ⟨invariant_at (.gap 0) (show 0 < 13 * 1 by decide) rfl rfl, rfl, by decide⟩

end Sys2Proof.Tests
end

/-! ## Proofs: slot selection (10_state.md R19) -/

section
namespace Sys2Proof.Machine

/-- In a chain of every length index 1 selects slot 0, whether or not it is in range. -/
@[simp] theorem slotOf_one (n : Nat) : slotOf n 1 = 0 := by
  unfold slotOf
  split <;> rfl

/-- An index out of range and index 1 select the same slot. -/
theorem slotOf_outOfRange_eq_one {n : Nat} {idx : Int} (h : idx ≤ 0 ∨ (n : Int) < idx) :
    slotOf n idx = slotOf n 1 := by
  rw [slotOf_outOfRange (h.imp_left (by omega)), slotOf_one]

/-- DATA_RAW_SET uses its index only to select a slot. -/
theorem exec_dataRawSet_congr_slot {s : State} {i j : Int} (h : slotOf s.n i = slotOf s.n j)
    (mags : Channels Word) : exec (.dataRawSet i mags) s = exec (.dataRawSet j mags) s := by
  simp only [exec, execDataRawSet, h]

/-- DATA_SET uses its index only to select a slot. -/
theorem exec_dataSet_congr_slot {s : State} {i j : Int} (h : slotOf s.n i = slotOf s.n j)
    (vals : Values) : exec (.dataSet i vals) s = exec (.dataSet j vals) s := by
  simp only [exec, execDataSet, h]

/-- Settles O23: an index out of range selects the slot of index 1, and the data operations see their index only through the
slot it selects. -/
theorem indexOutOfRangeSelectsSlotZero : Obligations.IndexOutOfRangeSelectsSlotZero := by
  refine ⟨fun n idx h1 hn => ?inRange, fun n idx h => ?outOfRange, fun s idx mags h => ?rawSet, fun s idx vals h => ?set⟩
  case inRange =>
    rw [slotOf_inRange ⟨h1, hn⟩]
    omega
  case outOfRange => rw [slotOf_outOfRange_eq_one h, slotOf_one]
  case rawSet => exact exec_dataRawSet_congr_slot (slotOf_outOfRange_eq_one h) mags
  case set => exact exec_dataSet_congr_slot (slotOf_outOfRange_eq_one h) vals

end Sys2Proof.Machine
end

/-! ## Proofs: the paths to the wire (20_memory.md R45) -/

section
namespace Sys2Proof.Machine

/-- The length check passes its instruction on exactly where the vector has the wanted length. -/
theorem ifLength_eq_ok_iff {r : Request} {want : Nat} {i j : Instr} :
    ifLength r want i = .ok j ↔ r.len = want ∧ i = j := by
  unfold ifLength
  split <;> simp_all

/-- A request names one of the five host operations (30_encoding.md R52). -/
theorem decodeRequest_ok_host {f : FpFormat} {r : Request} {i : Instr} (h : decodeRequest f r = .ok i) :
    i ≠ .sendWord ∧ i ≠ .latch := by
  unfold decodeRequest at h
  split at h
  case h_6 => cases h
  all_goals
    obtain ⟨-, rfl⟩ := ifLength_eq_ok_iff.1 h
    exact ⟨nofun, nofun⟩

/-- Everything a host operation can do when it answers a next state: write the commands, write a slot, or, REFRESH alone, enter
the first gap. -/
theorem exec_next_of_host {i : Instr} {s t : State} (hw : i ≠ .sendWord) (hl : i ≠ .latch) (h : exec i s = .next t) :
    s.seq = .idle ∧
    ((∃ c k, t = (s.setCommands c).afterDraws k) ∨
      (∃ slot vs k, t = (s.setSlot slot vs).afterDraws k) ∨
      (i = .refresh ∧ t = s.goto (.gap 0))) := by
  cases i with
  | cmdRawSet word =>
    obtain ⟨hs, rfl⟩ := takeInIdle_next h
    exact ⟨hs, .inl ⟨word, 0, rfl⟩⟩
  | cmdSet codes =>
    obtain ⟨hs, rfl⟩ := takeInIdle_next h
    refine ⟨hs, .inl ?_⟩
    split
    · exact ⟨_, 0, rfl⟩
    · exact ⟨_, 1, rfl⟩
  | dataRawSet idx mags =>
    obtain ⟨hs, rfl⟩ := takeInIdle_next h
    exact ⟨hs, .inr (.inl ⟨_, mags.toList, 0, rfl⟩)⟩
  | dataSet idx vals =>
    obtain ⟨hs, rfl⟩ := takeInIdle_next h
    exact ⟨hs, .inr (.inl ⟨_, _, _, rfl⟩)⟩
  | refresh =>
    obtain ⟨hs, rfl⟩ := takeInIdle_next h
    exact ⟨hs, .inr (.inr ⟨rfl, rfl⟩)⟩
  | sendWord => exact absurd rfl hw
  | latch => exact absurd rfl hl

/-- No host operation touches the wire, and only REFRESH moves the sequencer. -/
theorem exec_host_keeps_wire {i : Instr} {s t : State} (hw : i ≠ .sendWord) (hl : i ≠ .latch) (h : exec i s = .next t) :
    t.di = s.di ∧ t.dcki = s.dcki ∧ t.trace = s.trace ∧ t.crit = s.crit ∧ (i ≠ .refresh → t.seq = s.seq) := by
  obtain ⟨-, ⟨c, k, rfl⟩ | ⟨slot, vs, k, rfl⟩ | ⟨rfl, rfl⟩⟩ := exec_next_of_host hw hl h <;> simp

/-- The host's move changes only what is presented and what the host has still to issue. -/
theorem hostMove_eq (s : State) : ∃ p rs, hostMove s = { s with port := p, script := rs } := by
  unfold hostMove
  split
  · exact ⟨_, _, rfl⟩
  · exact ⟨s.port, s.script, rfl⟩

/-- What a step in IDLE can do: run the presented request, which names a host operation, or let the host move. -/
theorem step_next_of_idle {s t : State} (hs : s.seq = .idle) (h : step s = .next t) :
    (∃ r i, s.port = some r ∧ decodeRequest s.params.format r = .ok i ∧ i ≠ .sendWord ∧ i ≠ .latch ∧
      exec i { s with port := none } = .next t) ∨
    t = hostMove s := by
  obtain ⟨r, i, hp, hd, hx⟩ | ⟨i, -, hm, -⟩ | ⟨-, -, ht⟩ := step_next h
  · obtain ⟨hw, hl⟩ := decodeRequest_ok_host hd
    exact .inl ⟨r, i, hp, hd, hw, hl, hx⟩
  · rw [hs] at hm
    cases hm
  · exact .inr ht

/-- A step in IDLE does not touch the wire, and leaves IDLE only by taking a REFRESH. -/
theorem step_idle_keeps_wire {s t : State} (hs : s.seq = .idle) (h : step s = .next t) :
    t.di = s.di ∧ t.dcki = s.dcki ∧ t.trace = s.trace ∧ t.crit = s.crit ∧
    (t.seq ≠ .idle → ∃ r, s.port = some r ∧ decodeRequest s.params.format r = .ok .refresh) := by
  obtain ⟨r, i, hp, hd, hw, hl, hx⟩ | rfl := step_next_of_idle hs h
  · obtain ⟨hdi, hdcki, htrace, hcrit, hseq⟩ := exec_host_keeps_wire hw hl hx
    refine ⟨hdi, hdcki, htrace, hcrit, fun ht => ⟨r, hp, ?_⟩⟩
    have hi : i = .refresh := by_contra fun hne => ht ((hseq hne).trans hs)
    rw [hd, hi]
  · obtain ⟨p, rs, hm⟩ := hostMove_eq s
    rw [hm]
    exact ⟨rfl, rfl, rfl, rfl, fun ht => absurd hs ht⟩

/-- Settles O12: requests name host operations only, these leave the wire as it is, and of them only REFRESH takes the idle
sequencer away from IDLE. -/
theorem refreshIsTheOnlyPathToTheWire : Obligations.RefreshIsTheOnlyPathToTheWire :=
  ⟨fun _ _ => ⟨fun h => (decodeRequest_ok_host h).1 rfl, fun h => (decodeRequest_ok_host h).2 rfl⟩,
    fun _ _ _ => exec_host_keeps_wire,
    fun _ _ => step_idle_keeps_wire⟩

end Sys2Proof.Machine
end

/-! ## Proofs: register configuration (42_command_config.md R110, R114, R117) -/

section
namespace Sys2Proof.Machine

/-- A request of format RW, op 001, is CMD_RAW_SET of the word above the op (30_encoding.md R54). -/
theorem decodeRequest_cmdRawSet (f : FpFormat) (w : Word) :
    decodeRequest f ⟨19, w ++ 1#3⟩ = .ok (.cmdRawSet w) := by
  have hop : opOf ⟨19, w ++ 1#3⟩ = 1#3 := opOf_append w 1#3
  have hword : (w ++ 1#3).extractLsb' 3 16 = w := by
    rw [BitVec.extractLsb'_append_eq_of_le (by decide)]
    exact BitVec.extractLsb'_eq_self
  simp [decodeRequest, hop, hword, ifLength]

/-! ### What the configuration operations do -/

/-- In IDLE CMD_RAW_SET writes its word as the command of every slot (42_command_config.md R110). -/
theorem exec_cmdRawSet_idle {s : State} (h : s.seq = .idle) (w : Word) :
    exec (.cmdRawSet w) s = .next (s.setCommands w) :=
  takeInIdle_idle h _

/-- In IDLE CMD_SET with a code out of range writes the next draw as the command of every slot (42_command_config.md R114). -/
theorem exec_cmdSet_idle_outOfRange {s : State} {e : CmdCodes} (h : s.seq = .idle)
    (he : codesInRange s.params.layout e = false) :
    exec (.cmdSet e) s = .next ((s.setCommands s.nextDraw).afterDraws 1) := by
  simp [exec, execCmdSet, he, takeInIdle_idle h]

/-- Everything CMD_SET can do when it answers a next state: write one word as the command of every slot. -/
theorem exec_cmdSet_next {e : CmdCodes} {s t : State} (h : exec (.cmdSet e) s = .next t) :
    ∃ c k, t = (s.setCommands c).afterDraws k := by
  obtain ⟨-, rfl⟩ := takeInIdle_next h
  split
  · exact ⟨_, 0, rfl⟩
  · exact ⟨_, 1, rfl⟩

/-- What a broadcast of one word with `k` draws stores, and what it leaves unchanged. -/
theorem exec_broadcast_spec {i : Instr} {s : State} {c : Word} {k : Nat} (hs : s.chain.wf = true)
    (h : exec i s = .next ((s.setCommands c).afterDraws k)) :
    ∃ t, exec i s = .next t ∧
      (∀ j, j < s.n → t.cmd j = c) ∧
      (∀ a, (∀ j, j < s.n → a ≠ 13 * j) → t.memRead a = s.memRead a) ∧
      t = { s with chain := t.chain, draws := s.draws + k } :=
  ⟨_, h, fun _ hj => State.cmd_setCommands hs c hj, fun _ ha => State.memRead_setCommands_other s c ha, rfl⟩

/-- Settles O16: the operand of the request is the word itself, and CMD_RAW_SET is a broadcast of it without a draw. -/
theorem cmdRawSetBroadcastsTheWord : Obligations.CmdRawSetBroadcastsTheWord :=
  ⟨decodeRequest_cmdRawSet, fun w _ hidle hs => exec_broadcast_spec (k := 0) hs (exec_cmdRawSet_idle hidle w)⟩

/-- Settles O18: with a code out of range CMD_SET is a broadcast of the next draw. -/
theorem cmdSetOutOfRangeBroadcastsOneDraw : Obligations.CmdSetOutOfRangeBroadcastsOneDraw :=
  fun _ _ hidle hs he => exec_broadcast_spec hs (exec_cmdSet_idle_outOfRange hidle he)

/-! ### The buffer through the micro-steps -/

@[simp] theorem sendWordStep_n (a : Nat) (m : Fin 33) (w : Word) (s : State) : (sendWordStep a m w s).n = s.n := by
  unfold sendWordStep
  split
  · dsimp only
    split <;> rfl
  · rfl

@[simp] theorem sendWordStep_chain (a : Nat) (m : Fin 33) (w : Word) (s : State) :
    (sendWordStep a m w s).chain = s.chain := by
  unfold sendWordStep
  split
  · dsimp only
    split <;> rfl
  · rfl

@[simp] theorem latchStep_n (p : Fin 8) (s : State) : (latchStep p s).n = s.n := by
  unfold latchStep
  split <;> rfl

@[simp] theorem latchStep_chain (p : Fin 8) (s : State) : (latchStep p s).chain = s.chain := by
  unfold latchStep
  split <;> rfl

/-! ### The broadcast invariant (10_state.md R12) -/

/-- The broadcast invariant depends on the chain length and the buffer alone. -/
theorem broadcast_congr {s t : State} (hn : t.n = s.n) (hchain : t.chain = s.chain) (h : broadcast s) : broadcast t := by
  intro i hi
  rw [hn] at hi
  simpa only [State.cmd, State.memRead, hchain] using h i hi

/-- A write of the commands establishes the broadcast invariant, whatever the commands were before. -/
theorem broadcast_setCommands {s : State} (hs : s.chain.wf = true) (c : Word) (k : Nat) :
    broadcast ((s.setCommands c).afterDraws k) := by
  refine broadcast_congr (s := s.setCommands c) rfl rfl fun i (hi : i < s.n) => ?_
  rw [State.cmd_setCommands hs c hi, State.cmd_setCommands hs c (by omega)]

/-- Grayscale entries lie between command words: a write of twelve words to a slot leaves every command word alone. -/
theorem State.cmd_setSlot (s : State) (slot : Nat) {vs : List Word} (hvs : vs.length = 12) (i : Nat) :
    (s.setSlot slot vs).cmd i = s.cmd i :=
  State.memRead_setSlot_other s slot vs (by omega)

theorem broadcast_setSlot {s : State} (h : broadcast s) (slot : Nat) {vs : List Word} (hvs : vs.length = 12) (k : Nat) :
    broadcast ((s.setSlot slot vs).afterDraws k) := by
  refine broadcast_congr (s := s.setSlot slot vs) rfl rfl fun i hi => ?_
  rw [State.cmd_setSlot s slot hvs, State.cmd_setSlot s slot hvs]
  exact h i hi

/-- Every operation keeps the broadcast invariant: one writes the commands of all slots at once, one writes grayscale entries
only, the others leave the buffer alone. -/
theorem exec_keeps_broadcast {i : Instr} {s t : State} (hs : s.chain.wf = true) (hb : broadcast s)
    (h : exec i s = .next t) : broadcast t := by
  obtain ⟨-, c, k, rfl⟩ | ⟨-, idx, vs, k, hvs, rfl⟩ | ⟨-, rfl⟩ | ⟨a, -, -, rfl⟩ | ⟨a, m, w, -, rfl⟩ | ⟨-, rfl⟩ | ⟨p, -, rfl⟩ :=
    exec_next h
  case inl => exact broadcast_setCommands hs c k
  case inr.inl => exact broadcast_setSlot hb _ hvs k
  all_goals exact broadcast_congr (by simp) (by simp) hb

/-- Settles O22: both configuration operations write one word to every slot, and every operation keeps the broadcast
invariant. -/
theorem commandWordsStayEqual : Obligations.CommandWordsStayEqual := by
  refine ⟨fun w s t hs h => ?rawSet, fun e s t hs h => ?set, fun i s t hs hb h => exec_keeps_broadcast hs hb h⟩
  case rawSet =>
    obtain ⟨-, rfl⟩ := takeInIdle_next h
    exact broadcast_setCommands hs w 0
  case set =>
    obtain ⟨c, k, rfl⟩ := exec_cmdSet_next h
    exact broadcast_setCommands hs c k

end Sys2Proof.Machine
end

/-! ## Proofs: raw data assignment (43_data_assign.md R120) -/

section
namespace Sys2Proof.Machine

/-- The twelve values in ascending channel index are the values of the indices 0 to 11 (10_state.md R14). -/
theorem channels_toList_ofIndex {α : Type} (f : Nat → α) :
    (Channels.ofIndex f).toList = (List.range 12).map f := rfl

/-- The `k`-th magnitude of a request of format RD is `req[50+16·k : 35+16·k]` (30_encoding.md R56). -/
theorem magsOf_toList_getElem? (r : Request) {k : Nat} (hk : k < 12) :
    (magsOf r).toList[k]? = some (r.bits.extractLsb' (35 + 16 * k) 16) := by
  rw [magsOf, channels_toList_ofIndex, List.getElem?_map, List.getElem?_range hk, Option.map_some]

/-- A request of format RD, op 011, is DATA_RAW_SET of its fields (30_encoding.md R56). -/
theorem decodeRequest_dataRawSet (f : FpFormat) {r : Request} (hlen : r.len = 227)
    (hop : r.bits.extractLsb' 0 3 = 3#3) :
    decodeRequest f r = .ok (.dataRawSet (idxOf r) (magsOf r)) := by
  simp [decodeRequest, opOf, hop, ifLength, hlen]

/-- In IDLE DATA_RAW_SET writes its magnitudes to the selected slot (43_data_assign.md R120). -/
theorem exec_dataRawSet_idle {s : State} (h : s.seq = .idle) (idx : Int) (mags : Channels Word) :
    exec (.dataRawSet idx mags) s = .next (s.setSlot (slotOf s.n idx) mags.toList) :=
  takeInIdle_idle h _

/-- A step in IDLE takes a presented request of format RD, op 011, and writes its magnitudes to the slot its index selects. -/
theorem step_dataRawSet {r : Request} {s : State} (hport : s.port = some r) (hlen : r.len = 227)
    (hop : r.bits.extractLsb' 0 3 = 3#3) (hidle : s.seq = .idle) :
    step s = .next (State.setSlot { s with port := none } (slotOf s.n (idxOf r)) (magsOf r).toList) := by
  rw [step_request hport (decodeRequest_dataRawSet _ hlen hop)]
  exact exec_dataRawSet_idle (s := { s with port := none }) hidle _ _

/-- The entries of a slot after a write of twelve channels to it are those channels. -/
theorem State.gs_setSlot_channels {s : State} (hs : s.chain.wf = true) (slot : Nat) (c : Channels Word) {k : Nat}
    (hk : k < 12) : c.toList[k]? = some ((s.setSlot slot c.toList).gs slot k) := by
  rw [State.gs_setSlot hs slot c.toList hk]
  exact List.getElem?_eq_getElem hk

/-- Settles O24: DATA_RAW_SET is a write of its twelve magnitudes to the selected slot, and the fields of a request of format RD
are its index and its magnitudes. -/
theorem dataRawSetStoresTheMagnitudes : Obligations.DataRawSetStoresTheMagnitudes := by
  refine ⟨fun idx mags s hidle hs => ?exec, fun r s hport hlen hop hidle hs => ?request⟩
  case exec =>
    refine ⟨_, exec_dataRawSet_idle hidle idx mags, fun k hk => State.gs_setSlot_channels hs _ mags hk,
      fun a ha => State.memRead_setSlot_other s _ _ ?_, rfl⟩
    rw [channels_length]
    omega
  case request =>
    refine ⟨_, step_dataRawSet hport hlen hop hidle, fun k hk => Option.some.inj ?_⟩
    rw [← magsOf_toList_getElem? r hk]
    exact (State.gs_setSlot_channels hs _ _ hk).symm

end Sys2Proof.Machine
end

/-! ## Proofs: the chain length is fixed at construction (70_reset_and_hazards.md R163) -/

section
namespace Sys2Proof.Machine

/-- A construction with a chain length in range gives the state after construction. -/
theorem construct_inRange (p : Params) {n : Nat} (h1 : 1 ≤ n) (hmax : n ≤ Config.nMax) :
    State.construct p n = .next (State.initial p n) :=
  if_pos ⟨h1, hmax⟩

/-- A construction with a chain length out of range is refused by that length (60_exceptions.md R144 case (b)). -/
theorem construct_outOfRange (p : Params) {n : Nat} (h : n < 1 ∨ Config.nMax < n) :
    State.construct p n = .refused (.badChainLength n) :=
  if_neg (by omega)

/-- No operation changes the chain length: each is made of named updates, none of which writes it. -/
theorem exec_keeps_n {i : Instr} {s t : State} (h : exec i s = .next t) : t.n = s.n := by
  obtain ⟨-, c, k, rfl⟩ | ⟨-, idx, vs, k, -, rfl⟩ | ⟨-, rfl⟩ | ⟨a, -, -, rfl⟩ | ⟨a, m, w, -, rfl⟩ | ⟨-, rfl⟩ | ⟨p, -, rfl⟩ :=
    exec_next h
  all_goals simp

/-- No step changes the chain length: it runs an operation, or the host moves. -/
theorem step_keeps_n {s t : State} (h : step s = .next t) : t.n = s.n := by
  obtain ⟨r, i, -, -, hx⟩ | ⟨i, -, -, hx⟩ | ⟨-, -, rfl⟩ := step_next h
  · exact exec_keeps_n (s := { s with port := none }) hx
  · exact exec_keeps_n hx
  · obtain ⟨port, script, hmove⟩ := hostMove_eq s
    rw [hmove]

/-- Settles O15: construction takes N from its argument or refuses it, and neither an operation nor a step changes N. -/
theorem chainLengthIsFixedAtConstruction : Obligations.ChainLengthIsFixedAtConstruction :=
  ⟨fun p n h1 hmax => ⟨State.initial p n, construct_inRange p h1 hmax, State.initial_n p n⟩,
    fun p _ h => construct_outOfRange p h,
    fun _ _ _ => exec_keeps_n,
    fun _ _ => step_keeps_n⟩

end Sys2Proof.Machine
end

/-! ## Proofs: the request formats (30_encoding.md R51 to R60, R65) -/

section
namespace Sys2Proof

/-! ### Vectors built of fields, and fields of vectors -/

/-- A request is all of its bits from bit 0 up. -/
theorem request_eq_extractLsb' (r : Request) {n : Nat} (h : r.len = n) : (⟨n, r.bits.extractLsb' 0 n⟩ : Request) = r := by
  subst h
  rw [BitVec.extractLsb'_eq_self]

/-! ### The signed index (30_encoding.md R58) -/

/-- The 32-bit field of an index that it can hold reads as that index. -/
theorem toInt_ofInt_of_idxInField {idx : Int} (h : idxInField idx = true) : (BitVec.ofInt 32 idx).toInt = idx := by
  simp only [idxInField, Bool.and_eq_true, decide_eq_true_eq] at h
  exact BitVec.toInt_ofInt_eq_self (by decide) (by omega) (by omega)

/-- Every index read from a request is one its field can hold. -/
theorem idxInField_idxOf (r : Request) : idxInField (idxOf r) = true := by
  have hlo := BitVec.le_toInt (r.bits.extractLsb' 3 32)
  have hhi := BitVec.toInt_lt (x := r.bits.extractLsb' 3 32)
  unfold idxInField idxOf
  rw [Bool.and_eq_true, decide_eq_true_iff, decide_eq_true_iff]
  omega

/-! ### What a request decodes to, said once -/

/-- Everything a request can decode to: the operation of its op, where its length is that of the op's format, with the fields
of that format (30_encoding.md R52 to R57). -/
theorem decodeRequest_ok {f : FpFormat} {r : Request} {i : Instr} (h : decodeRequest f r = .ok i) :
    (opOf r = 1#3 ∧ r.len = 19 ∧ i = .cmdRawSet (r.bits.extractLsb' 3 16)) ∨
    (opOf r = 2#3 ∧ r.len = 67 ∧ i = .cmdSet (codesOf r)) ∨
    (opOf r = 3#3 ∧ r.len = 227 ∧ i = .dataRawSet (idxOf r) (magsOf r)) ∨
    (opOf r = 4#3 ∧ r.len = valsLength f ∧ i = .dataSet (idxOf r) (valsOf f r)) ∨
    (opOf r = 5#3 ∧ r.len = 3 ∧ i = .refresh) := by
  unfold decodeRequest at h
  split at h
  case h_6 => cases h
  all_goals
    rename_i hop
    obtain ⟨hlen, rfl⟩ := Machine.ifLength_eq_ok_iff.1 h
    have hop := congrArg (BitVec.ofNat 3) hop
    rw [BitVec.ofNat_toNat, BitVec.setWidth_eq] at hop
    simp [hop, hlen]

theorem decodeRequest_op2 (f : FpFormat) {r : Request} (hop : opOf r = 2#3) :
    decodeRequest f r = ifLength r 67 (.cmdSet (codesOf r)) := by
  simp [decodeRequest, hop]

theorem decodeRequest_op3 (f : FpFormat) {r : Request} (hop : opOf r = 3#3) :
    decodeRequest f r = ifLength r 227 (.dataRawSet (idxOf r) (magsOf r)) := by
  simp [decodeRequest, hop]

theorem decodeRequest_op4 (f : FpFormat) {r : Request} (hop : opOf r = 4#3) :
    decodeRequest f r = ifLength r (valsLength f) (.dataSet (idxOf r) (valsOf f r)) := by
  simp [decodeRequest, hop]

/-! ### The fields of an encoding are the operands -/

/-- Eight codes are told by their values field by field. -/
theorem CmdCodes.eq_of_map_codeOf {e e' : CmdCodes}
    (h : Machine.cmdFields.map (Machine.codeOf e) = Machine.cmdFields.map (Machine.codeOf e')) : e = e' := by
  cases e
  cases e'
  simpa [Machine.cmdFields, Machine.codeOf] using h

/-- Eight fields of one width above the op, read in ascending order (30_encoding.md R55). -/
theorem map_extractLsb'_append {w : Nat} (x0 x1 x2 x3 x4 x5 x6 x7 : BitVec w) (op : BitVec 3) :
    ((List.range 8).map fun j => (x7 ++ x6 ++ x5 ++ x4 ++ x3 ++ x2 ++ x1 ++ x0 ++ op).extractLsb' (3 + w * j) w)
      = [x0, x1, x2, x3, x4, x5, x6, x7] := by
  simp (disch := omega) [List.range_succ, BitVec.extractLsb'_append_eq_of_le, BitVec.extractLsb'_append_eq_of_add_le]

/-- The eight codes of a request are its fields `req[3+8·j+7 : 3+8·j]` in the order of the fields (30_encoding.md R55). -/
theorem map_codeOf_codesOf (r : Request) :
    Machine.cmdFields.map (Machine.codeOf (codesOf r)) = (List.range 8).map fun j => r.bits.extractLsb' (3 + 8 * j) 8 := rfl

/-- The eight fields of format RF are the codes it was built of (30_encoding.md R55). -/
theorem codesOf_encodeCodes (c : CmdCodes) : codesOf ⟨67, encodeCodes c⟩ = c :=
  CmdCodes.eq_of_map_codeOf ((map_codeOf_codesOf _).trans (map_extractLsb'_append ..))

/-- Twelve fields of one width above the index and the op, read in channel order (30_encoding.md R56, R57). -/
theorem channels_ofIndex_append {w : Nat} (c : Channels (BitVec w)) (idx : BitVec 32) (op : BitVec 3) :
    (Channels.ofIndex fun k => (c.g0c ++ c.g0b ++ c.g0a ++ c.g1c ++ c.g1b ++ c.g1a ++ c.g2c ++ c.g2b ++ c.g2a ++ c.g3c ++ c.g3b
      ++ c.g3a ++ idx ++ op).extractLsb' (35 + w * k) w) = c := by
  simp (disch := omega) [Channels.ofIndex, BitVec.extractLsb'_append_eq_of_le, BitVec.extractLsb'_append_eq_of_add_le]

/-- The field `idx` lies between the op and the operands (30_encoding.md R56, R57). -/
theorem idxOf_append {n : Nat} (x : BitVec n) {idx : Int} (op : BitVec 3) (h : idxInField idx = true) :
    idxOf ⟨n + 32 + 3, x ++ BitVec.ofInt 32 idx ++ op⟩ = idx := by
  rw [idxOf, BitVec.extractLsb'_append_eq_of_le (by decide), BitVec.extractLsb'_append_eq_of_add_le (by decide),
    BitVec.extractLsb'_eq_self, toInt_ofInt_of_idxInField h]

/-! ### The encoding of the fields is the request -/

/-- A request of format RW is the encoding of its field. -/
theorem encodeWord_field {r : Request} (hop : opOf r = 1#3) (hlen : r.len = 19) :
    (⟨19, r.bits.extractLsb' 3 16 ++ 1#3⟩ : Request) = r := by
  have hbits : r.bits.extractLsb' 3 16 ++ r.bits.extractLsb' 0 3 = r.bits.extractLsb' 0 19 :=
    BitVec.extractLsb'_append_extractLsb'_eq_extractLsb' rfl
  rw [← hop, opOf, hbits]
  exact request_eq_extractLsb' r hlen

/-- A request of format RF is the encoding of its fields. -/
theorem encodeCodes_codesOf {r : Request} (hop : opOf r = 2#3) (hlen : r.len = 67) :
    (⟨67, encodeCodes (codesOf r)⟩ : Request) = r := by
  rw [encodeCodes, ← hop, codesOf, opOf]
  simp (disch := omega) only [BitVec.extractLsb'_append_extractLsb'_eq_extractLsb']
  exact request_eq_extractLsb' r hlen

/-- Twelve adjacent fields of one width, the index and the op are the vector they were read from. -/
theorem append_channels_ofIndex {w n : Nat} (x : BitVec n) :
    let c : Channels (BitVec w) := Channels.ofIndex fun k => x.extractLsb' (35 + w * k) w
    c.g0c ++ c.g0b ++ c.g0a ++ c.g1c ++ c.g1b ++ c.g1a ++ c.g2c ++ c.g2b ++ c.g2a ++ c.g3c ++ c.g3b ++ c.g3a
      ++ x.extractLsb' 3 32 ++ x.extractLsb' 0 3 = x.extractLsb' 0 _ := by
  simp (disch := omega) only [Channels.ofIndex, BitVec.extractLsb'_append_extractLsb'_eq_extractLsb']

/-- A request of format RD is the encoding of its fields. -/
theorem encodeMags_magsOf {r : Request} (hop : opOf r = 3#3) (hlen : r.len = 227) :
    (⟨227, encodeMags (idxOf r) (magsOf r)⟩ : Request) = r := by
  rw [encodeMags, ← hop, idxOf, BitVec.ofInt_toInt, magsOf, opOf, append_channels_ofIndex]
  exact request_eq_extractLsb' r hlen

/-- A request of format RN is the encoding of its fields. -/
theorem encodeVals_valsOf {f : FpFormat} {r : Request} (hop : opOf r = 4#3) (hlen : r.len = valsLength f) :
    encodeVals (idxOf r) (valsOf f r) = r := by
  rw [encodeVals, ← hop, idxOf, BitVec.ofInt_toInt, valsOf, opOf, append_channels_ofIndex]
  refine request_eq_extractLsb' r (hlen.trans ?_)
  simp only [valsLength]
  omega

/-! ### Decoding an encoding -/

theorem decode_encode_cmdSet (f : FpFormat) (c : CmdCodes) : decode f (encode (.cmdSet c)) = .ok (.cmdSet c) := by
  have hop : opOf ⟨67, encodeCodes c⟩ = 2#3 := opOf_append _ _
  show decodeRequest f ⟨67, encodeCodes c⟩ = _
  rw [decodeRequest_op2 f hop, codesOf_encodeCodes, Machine.ifLength_eq_ok_iff]
  exact ⟨rfl, rfl⟩

theorem decode_encode_dataRawSet (f : FpFormat) {idx : Int} (h : idxInField idx = true) (m : Channels Word) :
    decode f (encode (.dataRawSet idx m)) = .ok (.dataRawSet idx m) := by
  have hop : opOf ⟨227, encodeMags idx m⟩ = 3#3 := opOf_append _ _
  have hidx : idxOf ⟨227, encodeMags idx m⟩ = idx := idxOf_append _ _ h
  have hmags : magsOf ⟨227, encodeMags idx m⟩ = m := channels_ofIndex_append m _ _
  show decodeRequest f ⟨227, encodeMags idx m⟩ = _
  rw [decodeRequest_op3 f hop, hidx, hmags, Machine.ifLength_eq_ok_iff]
  exact ⟨rfl, rfl⟩

theorem decode_encode_dataSet {idx : Int} (h : idxInField idx = true) (v : Values) :
    decode v.format (encode (.dataSet idx v)) = .ok (.dataSet idx v) := by
  have hop : opOf (encodeVals idx v) = 4#3 := opOf_append _ _
  have hidx : idxOf (encodeVals idx v) = idx := idxOf_append _ _ h
  have hvals : valsOf v.format (encodeVals idx v) = v := congrArg (Values.mk v.format) (channels_ofIndex_append v.vals _ _)
  have hlen : (encodeVals idx v).len = valsLength v.format := by
    simp only [encodeVals, valsLength]
    omega
  show decodeRequest v.format (encodeVals idx v) = _
  rw [decodeRequest_op4 v.format hop, hidx, hvals, Machine.ifLength_eq_ok_iff]
  exact ⟨hlen, rfl⟩

/-- Settles O1, operation by operation: the encoding has its format's op and length, and its fields are the operands. -/
theorem decodeOfEncodeIsIdentity : Obligations.DecodeOfEncodeIsIdentity := by
  intro f i hwf hf
  cases i with
  | cmdRawSet word => exact Machine.decodeRequest_cmdRawSet f word
  | cmdSet codes => exact decode_encode_cmdSet f codes
  | dataRawSet idx mags => exact decode_encode_dataRawSet f hwf mags
  | dataSet idx vals =>
    obtain rfl : vals.format = f := of_decide_eq_true hf
    exact decode_encode_dataSet hwf vals
  | refresh => rfl
  | sendWord => rfl
  | latch => rfl

/-! ### Encoding what was decoded -/

/-- What a request decodes to is well-formed, of the block's format, and encoded by that request. -/
theorem encode_decodeRequest {f : FpFormat} {r : Request} {i : Instr} (h : decodeRequest f r = .ok i) :
    i.WellFormed ∧ i.ofFormat f = true ∧ encode i = .request r := by
  obtain ⟨hop, hlen, rfl⟩ | ⟨hop, hlen, rfl⟩ | ⟨hop, hlen, rfl⟩ | ⟨hop, hlen, rfl⟩ | ⟨hop, hlen, rfl⟩ := decodeRequest_ok h
  · exact ⟨rfl, rfl, congrArg Code.request (encodeWord_field hop hlen)⟩
  · exact ⟨rfl, rfl, congrArg Code.request (encodeCodes_codesOf hop hlen)⟩
  · exact ⟨idxInField_idxOf r, rfl, congrArg Code.request (encodeMags_magsOf hop hlen)⟩
  · exact ⟨idxInField_idxOf r, decide_eq_true rfl, congrArg Code.request (encodeVals_valsOf hop hlen)⟩
  · refine ⟨rfl, rfl, congrArg Code.request ?_⟩
    rw [← hop]
    exact request_eq_extractLsb' r hlen

/-- What a phase code decodes to is encoded by it. -/
theorem encode_decodePhase {p : BitVec 2} {i : Instr} (h : decodePhase p = .ok i) :
    (i = .sendWord ∨ i = .latch) ∧ encode i = .phase p := by
  unfold decodePhase at h
  split at h
  case h_3 => cases h
  all_goals
    rename_i hp
    cases h
    exact ⟨by simp, congrArg Code.phase (BitVec.eq_of_toNat_eq hp.symm)⟩

/-- Settles O2, for the two forms of a code. -/
theorem encodeOfDecodeIsIdentity : Obligations.EncodeOfDecodeIsIdentity := by
  intro f c i h
  cases c with
  | request r => exact encode_decodeRequest h
  | phase p =>
    obtain ⟨rfl | rfl, henc⟩ := encode_decodePhase h
    · exact ⟨rfl, rfl, henc⟩
    · exact ⟨rfl, rfl, henc⟩

/-! ### Which vectors are requests (30_encoding.md R59, R60) -/

/-- The length check rejects by name exactly where the vector has another length. -/
theorem ifLength_eq_error_iff {r : Request} {want : Nat} {i : Instr} {e : DecodeError} :
    ifLength r want i = .error e ↔ r.len ≠ want ∧ .wrongLength (opOf r) r.len = e := by
  unfold ifLength
  split <;> simp_all

/-- Why a vector is no request: its op is reserved, or its length is not that of its op. -/
theorem decodeRequest_error {f : FpFormat} {r : Request} {e : DecodeError} (h : decodeRequest f r = .error e) :
    ((opOf r).toNat ∈ [0, 6, 7] ∧ e = .reservedOp (opOf r)) ∨
    ((opOf r).toNat ∈ [1, 2, 3, 4, 5] ∧ e = .wrongLength (opOf r) r.len) := by
  unfold decodeRequest at h
  split at h
  case h_6 h1 h2 h3 h4 h5 =>
    cases h
    have hlt := (opOf r).isLt
    rw [imp_false] at h1 h2 h3 h4 h5
    have hop : (opOf r).toNat = 0 ∨ (opOf r).toNat = 6 ∨ (opOf r).toNat = 7 := by omega
    exact .inl ⟨by simpa using hop, rfl⟩
  all_goals
    rename_i hop
    exact .inr ⟨by simp [hop], (ifLength_eq_error_iff.1 h).2.symm⟩

/-- The op and the length of each of the five formats (30_encoding.md R52). -/
def formats (f : FpFormat) : List (Nat × Nat) := [(1, 19), (2, 67), (3, 227), (4, 35 + 12 * f.width), (5, 3)]

/-- A vector is a request exactly if its op and length are those of a format. -/
theorem decodeRequest_ok_iff {f : FpFormat} {r : Request} :
    (∃ i, decodeRequest f r = .ok i) ↔ ((opOf r).toNat, r.len) ∈ formats f := by
  constructor
  · rintro ⟨i, h⟩
    obtain ⟨hop, hlen, -⟩ | ⟨hop, hlen, -⟩ | ⟨hop, hlen, -⟩ | ⟨hop, hlen, -⟩ | ⟨hop, hlen, -⟩ := decodeRequest_ok h
    all_goals simp [formats, hop, hlen, valsLength]
  · intro h
    cases hd : decodeRequest f r with
    | ok i => exact ⟨i, rfl⟩
    | error e =>
      exfalso
      unfold decodeRequest at hd
      split at hd <;> simp_all [formats, ifLength, valsLength]

/-- The op of a request is none of the reserved ones. -/
theorem op_mem_of_decodeRequest_ok {f : FpFormat} {r : Request} (h : ∃ i, decodeRequest f r = .ok i) :
    (opOf r).toNat ∈ [1, 2, 3, 4, 5] :=
  List.mem_map_of_mem (f := Prod.fst) (decodeRequest_ok_iff.1 h)

/-- The reserved ops are none of the five. -/
theorem reserved_op_not_mem : ∀ op ∈ [0, 6, 7], op ∉ [1, 2, 3, 4, 5] := by decide

/-- Settles O3: a vector is a request by `decodeRequest_ok_iff`, and `decodeRequest_error` names why it is none. -/
theorem requestsAreTheFiveFormats : Obligations.RequestsAreTheFiveFormats := by
  refine ⟨fun f r => ⟨decodeRequest_ok_iff, fun hop => ?reserved, fun hop hno => ?length⟩, rfl, rfl⟩
  case reserved =>
    cases h : decodeRequest f r with
    | ok i => exact absurd (op_mem_of_decodeRequest_ok ⟨i, h⟩) (reserved_op_not_mem _ hop)
    | error e =>
      obtain ⟨-, rfl⟩ | ⟨hop', -⟩ := decodeRequest_error h
      · rfl
      · exact absurd hop' (reserved_op_not_mem _ hop)
  case length =>
    cases h : decodeRequest f r with
    | ok i => exact absurd ⟨i, h⟩ hno
    | error e =>
      obtain ⟨hop', -⟩ | ⟨-, rfl⟩ := decodeRequest_error h
      · exact absurd hop (reserved_op_not_mem _ hop')
      · rfl

/-! ### The fields of a request (30_encoding.md R54 to R57) -/

theorem fields_of_cmdRawSet {f : FpFormat} {r : Request} {w : Word} (h : decodeRequest f r = .ok (.cmdRawSet w)) :
    opOf r = 1#3 ∧ r.len = 19 ∧ w = r.bits.extractLsb' 3 16 := by
  simpa using decodeRequest_ok h

theorem fields_of_cmdSet {f : FpFormat} {r : Request} {e : CmdCodes} (h : decodeRequest f r = .ok (.cmdSet e)) :
    opOf r = 2#3 ∧ r.len = 67 ∧ e = codesOf r := by
  simpa using decodeRequest_ok h

theorem fields_of_dataRawSet {f : FpFormat} {r : Request} {idx : Int} {mags : Channels Word}
    (h : decodeRequest f r = .ok (.dataRawSet idx mags)) :
    opOf r = 3#3 ∧ r.len = 227 ∧ idx = idxOf r ∧ mags = magsOf r := by
  simpa using decodeRequest_ok h

theorem fields_of_dataSet {f : FpFormat} {r : Request} {idx : Int} {vals : Values}
    (h : decodeRequest f r = .ok (.dataSet idx vals)) :
    opOf r = 4#3 ∧ r.len = valsLength f ∧ idx = idxOf r ∧ vals = valsOf f r := by
  simpa using decodeRequest_ok h

/-- Settles O4: the operands are the fields the decoder cuts out, and twelve operands are listed group by group. -/
theorem requestFieldsAreTheFormats : Obligations.RequestFieldsAreTheFormats := by
  refine ⟨fun f r w h => fields_of_cmdRawSet h, fun f r e h => ?set, fun f r idx mags h => ?rawData,
    fun f r idx vals h => ?data, rfl, rfl, fun α c => ⟨rfl, rfl, rfl, rfl, rfl, rfl⟩⟩
  case set =>
    obtain ⟨hop, hlen, rfl⟩ := fields_of_cmdSet h
    exact ⟨hop, hlen, map_codeOf_codesOf r⟩
  case rawData =>
    obtain ⟨hop, hlen, rfl, rfl⟩ := fields_of_dataRawSet h
    exact ⟨hop, hlen, rfl, Machine.channels_toList_ofIndex _⟩
  case data =>
    obtain ⟨hop, hlen, rfl, rfl⟩ := fields_of_dataSet h
    exact ⟨hop, hlen, rfl, rfl, rfl⟩

/-- Settles O5: each vector has the op and the length of its format, and its fields are the operands printed beside it. -/
theorem specRequestWordsDecode : Obligations.SpecRequestWordsDecode :=
  fun _ => ⟨rfl, rfl, rfl, rfl⟩

end Sys2Proof
end

/-! ## Proofs: whose turn it is (20_memory.md section 5, 60_exceptions.md sections 1 and 2) -/

section
namespace Sys2Proof.Machine

/-- A step with a vector presented that is no request refuses it with the decoder's reason. -/
theorem step_nonRequest {s : State} {r : Request} {e : DecodeError} (hp : s.port = some r)
    (hd : decodeRequest s.params.format r = .error e) : step s = .refused (.badRequest e) := by
  simp [step, currentOf, hp, hd]

/-- A step in IDLE with nothing presented is the host's. -/
theorem step_host {s : State} (hp : s.port = none) (hs : s.seq = .idle) : step s = .next (hostMove s) := by
  simp [step, currentOf, hp, hs, microOperation]

/-- A host operation is refused as busy outside IDLE. -/
theorem exec_host_busy {i : Instr} {s : State} (hs : s.seq ≠ .idle) (hw : i ≠ .sendWord) (hl : i ≠ .latch) :
    exec i s = .refused .busy := by
  cases i with
  | cmdRawSet _ => exact takeInIdle_busy hs _
  | cmdSet _ => exact takeInIdle_busy hs _
  | dataRawSet _ _ => exact takeInIdle_busy hs _
  | dataSet _ _ => exact takeInIdle_busy hs _
  | refresh => exact takeInIdle_busy hs _
  | sendWord => exact absurd rfl hw
  | latch => exact absurd rfl hl

/-- A request presented outside IDLE is refused as busy. -/
theorem step_request_busy {s : State} {r : Request} {i : Instr} (hp : s.port = some r) (hs : s.seq ≠ .idle)
    (hd : decodeRequest s.params.format r = .ok i) : step s = .refused .busy := by
  obtain ⟨hw, hl⟩ := decodeRequest_ok_host hd
  rw [step_request hp hd]
  exact exec_host_busy (s := { s with port := none }) hs hw hl

/-- Nothing presented is nothing to take off the request input. -/
theorem State.withoutPort_eq {s : State} (hp : s.port = none) : { s with port := none } = s := by
  cases s
  cases hp
  rfl

theorem steps_one (s : State) : steps 1 s = step s := by
  cases h : step s <;> simp [steps, h]

/-- A run begins with its first step. -/
theorem steps_succ_of_next {s t : State} (h : step s = .next t) (k : Nat) : steps (k + 1) s = steps k t := by
  rw [steps, h]

/-- Settles O6: `step_request`. -/
theorem stepRunsPresentedRequest : Obligations.StepRunsPresentedRequest :=
  fun _ _ _ => step_request

/-- Settles O7: with nothing presented a step runs the micro-operation the sequencer stands at, which the phase code names inside
the primitives. -/
theorem stepRunsSequencedMicroOperation : Obligations.StepRunsSequencedMicroOperation := by
  refine ⟨fun s a hp hs => step_micro hp ?_, fun s a m w hp hs => step_micro hp ?_, fun s hp hs => step_micro hp ?_,
    fun s p hp hs => step_micro hp ?_, fun q i h => ?_⟩
  case refine_5 => cases q <;> cases h <;> rfl
  all_goals rw [hs, microOperation]

/-- Settles O8: the step is the host's move, which depends on its script. -/
theorem idleStepIsTheHostsMove : Obligations.IdleStepIsTheHostsMove := by
  intro s hp hs
  rw [step_host hp hs]
  refine ⟨fun r rs h => ?_, fun h => ?_⟩
  all_goals simp [hostMove, h]

/-- Settles O9: outside IDLE a vector that is no request is refused by the decoder's reason, a request as busy. -/
theorem requestOutsideIdleIsRefused : Obligations.RequestOutsideIdleIsRefused := by
  refine ⟨fun s r hp hs => ?_, fun s r i => step_request_busy, fun s i => exec_host_busy⟩
  cases hd : decodeRequest s.params.format r with
  | ok i => exact ⟨_, step_request_busy hp hs hd⟩
  | error e => exact ⟨_, step_nonRequest hp hd⟩

/-- Settles O10: `step_nonRequest`. -/
theorem nonRequestIsRefused : Obligations.NonRequestIsRefused :=
  fun _ _ _ => step_nonRequest

/-- Settles O11: one step presents the request, the next takes it off the input and runs it. -/
theorem scriptRunsInOrder : Obligations.ScriptRunsInOrder := by
  intro s r rs i hp hs hscript hd
  have hpresent : step s = .next { s with port := some r, script := rs } := by
    rw [step_host hp hs, hostMove, hscript]
  have htaken : ({ s with port := none, script := rs } : State) = { s with script := rs } :=
    congrArg (fun u : State => { u with script := rs }) (State.withoutPort_eq hp)
  rw [steps_succ_of_next hpresent, steps_one, ← htaken]
  exact step_request (s := { s with port := some r, script := rs }) rfl hd

end Sys2Proof.Machine
end

/-! ## Proofs: the transition table (40_transmit_primitives.md R82, R88; 41_refresh.md R103) -/

section
namespace Sys2Proof.Machine

/-! ### The rows -/

/-- The rows of the transition table of 41_refresh.md R103 that start outside IDLE, as transitions from the state `s`. -/
inductive MicroStep (s : State) : State → Prop where
  | enterWord (a : Nat) (hseq : s.seq = .gap a) (ha : s.inChain a) :
    MicroStep s ((s.setCRIT true).goto (.word a 0 (s.memRead a)))
  | data (a : Nat) (m : Fin 33) (w : Word) (hseq : s.seq = .word a m w) (hm : m.val < 32) (heven : m.val % 2 = 0) :
    MicroStep s ((s.setDI (w.getLsbD (15 - m.val / 2))).goto (.word a ⟨m.val + 1, Nat.succ_lt_succ hm⟩ w))
  | clock (a : Nat) (m : Fin 33) (w : Word) (hseq : s.seq = .word a m w) (hm : m.val < 32) (hodd : m.val % 2 = 1) :
    MicroStep s ((s.setDCKI (decide (m.val % 4 = 1))).goto (.word a ⟨m.val + 1, Nat.succ_lt_succ hm⟩ w))
  | closeWord (a : Nat) (m : Fin 33) (w : Word) (hseq : s.seq = .word a m w) (hm : m.val = 32) :
    MicroStep s (((s.setDI false).setCRIT false).goto (afterWord s.n a))
  | enterLatch (hseq : s.seq = .prelatch) : MicroStep s ((s.setCRIT true).goto (.latch 0))
  | pulse (p : Fin 8) (hseq : s.seq = .latch p) (hp : p.val < 7) :
    MicroStep s ((s.setDI (decide (p.val % 2 = 0))).goto (.latch ⟨p.val + 1, Nat.succ_lt_succ hp⟩))
  | closeLatch (p : Fin 8) (hseq : s.seq = .latch p) (hp : p.val = 7) :
    MicroStep s (((s.setDI false).setCRIT false).goto .idle)

/-- A micro-step of SEND_WORD is one of its three rows. -/
theorem microStep_sendWordStep {s : State} {a : Nat} {m : Fin 33} {w : Word} (hseq : s.seq = .word a m w) :
    MicroStep s (sendWordStep a m w s) := by
  by_cases hm : m.val < 32
  · rcases Nat.mod_two_eq_zero_or_one m.val with heven | hodd
    · rw [sendWordStep_data a m w s hm heven]
      exact .data a m w hseq hm heven
    · rw [sendWordStep_clock a m w s hm hodd]
      exact .clock a m w hseq hm hodd
  · rw [sendWordStep_last a m w s hm]
    exact .closeWord a m w hseq (by omega)

/-- A micro-step of LATCH is one of its two rows. -/
theorem microStep_latchStep {s : State} {p : Fin 8} (hseq : s.seq = .latch p) : MicroStep s (latchStep p s) := by
  by_cases hp : p.val < 7
  · rw [latchStep_pulse p s hp]
    exact .pulse p hseq hp
  · rw [latchStep_last p s hp]
    exact .closeLatch p hseq (by omega)

/-- An operation run outside IDLE makes one transition of the table, if it answers a next state. -/
theorem microStep_of_exec {i : Instr} {s t : State} (hs : s.seq ≠ .idle) (h : exec i s = .next t) : MicroStep s t := by
  obtain ⟨hidle, -⟩ | ⟨hidle, -⟩ | ⟨hidle, -⟩ | ⟨a, hseq, ha, rfl⟩ | ⟨a, m, w, hseq, rfl⟩ | ⟨hseq, rfl⟩ | ⟨p, hseq, rfl⟩ :=
    exec_next h
  case inr.inr.inr.inl => exact .enterWord a hseq ha
  case inr.inr.inr.inr.inl => exact microStep_sendWordStep hseq
  case inr.inr.inr.inr.inr.inl => exact .enterLatch hseq
  case inr.inr.inr.inr.inr.inr => exact microStep_latchStep hseq
  all_goals exact absurd hidle hs

/-- Everything a step can do outside IDLE: with nothing presented, one transition of the table. -/
theorem microStep_of_step {s t : State} (hs : s.seq ≠ .idle) (h : step s = .next t) : s.port = none ∧ MicroStep s t := by
  obtain ⟨r, i, hp, hd, -⟩ | ⟨i, hp, -, hx⟩ | ⟨-, hidle, -⟩ := step_next h
  · rw [step_request_busy hp hs hd] at h
    cases h
  · exact ⟨hp, microStep_of_exec hs hx⟩
  · exact absurd hidle hs

/-! ### The step at each position, with nothing presented -/

theorem step_gap {s : State} {a : Nat} (hp : s.port = none) (hseq : s.seq = .gap a) (ha : s.inChain a) :
    step s = .next ((s.setCRIT true).goto (.word a 0 (s.memRead a))) :=
  (step_micro (i := .sendWord) hp (by rw [hseq, microOperation])).trans (execSendWord_gap hseq ha)

theorem step_word {s : State} {a : Nat} {m : Fin 33} {w : Word} (hp : s.port = none) (hseq : s.seq = .word a m w) :
    step s = .next (sendWordStep a m w s) :=
  (step_micro (i := .sendWord) hp (by rw [hseq, microOperation])).trans (execSendWord_word hseq)

theorem step_prelatch {s : State} (hp : s.port = none) (hseq : s.seq = .prelatch) :
    step s = .next ((s.setCRIT true).goto (.latch 0)) :=
  (step_micro (i := .latch) hp (by rw [hseq, microOperation])).trans (execLatch_prelatch hseq)

theorem step_latch {s : State} {p : Fin 8} (hp : s.port = none) (hseq : s.seq = .latch p) :
    step s = .next (latchStep p s) :=
  (step_micro (i := .latch) hp (by rw [hseq, microOperation])).trans (execLatch_latch hseq)

/-! ### What every transition leaves alone -/

/-- The part of the state that is neither the wire nor the sequencer position. -/
def State.offWire (s : State) : Params × Nat × Memory × Option Request × List Request × Nat :=
  (s.params, s.n, s.chain, s.port, s.script, s.draws)

/-- A transition of the table changes the lines, CRIT, the trace and the sequencer position only. -/
theorem MicroStep.offWire_eq {s t : State} (h : MicroStep s t) : t.offWire = s.offWire := by
  cases h <;> rfl

/-- Settles O53: outside IDLE a step is a transition of the table. -/
theorem transmitterLeavesTheBuffer : Obligations.TransmitterLeavesTheBuffer := by
  intro s t hs h
  have hoff := (microStep_of_step hs h).2.offWire_eq
  simp only [State.offWire, Prod.mk.injEq] at hoff
  obtain ⟨-, hn, hchain, hport, hscript, hdraws⟩ := hoff
  exact ⟨hchain, hn, hdraws, hport, hscript⟩

/-! ### What a step in IDLE does -/

/-- Everything a step in IDLE can do, the request input, the host's script and the draws apart: write the commands, write twelve
entries of a slot of the chain, enter the first gap, or hold. -/
theorem step_idle_cases {s t : State} (hs : s.seq = .idle) (h : step s = .next t) :
    ∃ u port script draws, t = { u with port := port, script := script, draws := draws } ∧
      ((∃ c, u = s.setCommands c) ∨ (∃ idx vs, vs.length = 12 ∧ u = s.setSlot (slotOf s.n idx) vs) ∨
        u = s.goto (.gap 0) ∨ u = s) := by
  obtain ⟨r, i, -, -, -, -, hx⟩ | rfl := step_next_of_idle hs h
  · obtain ⟨-, c, k, rfl⟩ | ⟨-, idx, vs, k, hvs, rfl⟩ | ⟨-, rfl⟩ | ⟨a, hseq, -⟩ | ⟨a, m, w, hseq, -⟩ | ⟨hseq, -⟩ | ⟨p, hseq, -⟩ :=
      exec_next hx
    · exact ⟨s.setCommands c, none, s.script, s.draws + k, rfl, .inl ⟨c, rfl⟩⟩
    · exact ⟨s.setSlot (slotOf s.n idx) vs, none, s.script, s.draws + k, rfl, .inr (.inl ⟨idx, vs, hvs, rfl⟩)⟩
    · exact ⟨s.goto (.gap 0), none, s.script, s.draws, rfl, .inr (.inr (.inl rfl))⟩
    all_goals cases hs.symm.trans hseq
  · obtain ⟨port, script, hmove⟩ := hostMove_eq s
    exact ⟨s, port, script, s.draws, hmove, .inr (.inr (.inr rfl))⟩

/-! ### The parameters (10_state.md R26) -/

theorem exec_keeps_params {i : Instr} {s t : State} (h : exec i s = .next t) : t.params = s.params := by
  by_cases hs : s.seq = .idle
  · obtain ⟨-, c, k, rfl⟩ | ⟨-, idx, vs, k, -, rfl⟩ | ⟨-, rfl⟩ | ⟨a, hseq, -⟩ | ⟨a, m, w, hseq, -⟩ | ⟨hseq, -⟩ | ⟨p, hseq, -⟩ :=
      exec_next h
    case inl => rfl
    case inr.inl => rfl
    case inr.inr.inl => rfl
    all_goals cases hs.symm.trans hseq
  · exact congrArg Prod.fst (microStep_of_exec hs h).offWire_eq

theorem step_keeps_params {s t : State} (h : step s = .next t) : t.params = s.params := by
  by_cases hs : s.seq = .idle
  · obtain ⟨u, port, script, draws, rfl, ⟨c, rfl⟩ | ⟨idx, vs, -, rfl⟩ | rfl | rfl⟩ := step_idle_cases hs h <;> rfl
  · exact congrArg Prod.fst (microStep_of_step hs h).2.offWire_eq

/-- Settles O14: no transition, in IDLE or outside it, writes the parameters. -/
theorem parametersNeverChange : Obligations.ParametersNeverChange :=
  ⟨fun _ _ _ => exec_keeps_params, fun _ _ => step_keeps_params⟩

/-! ### The rows as the table prints them -/

/-- Settles O36: REFRESH is taken in IDLE. -/
theorem refreshEntersTheFirstGap : Obligations.RefreshEntersTheFirstGap :=
  fun _ hs => takeInIdle_idle hs _

/-- Settles O37, row by row. -/
theorem sendWordMicroSteps : Obligations.SendWordMicroSteps := by
  refine ⟨fun s a hseq ha => execSendWord_gap hseq ha, fun s a m hm w hseq heven => ?_, fun s a m hm w hseq hodd => ?_,
    fun s a w hseq => ?_⟩
  · exact (execSendWord_word hseq).trans (congrArg _ (sendWordStep_data a ⟨m, by omega⟩ w s hm heven))
  · exact (execSendWord_word hseq).trans (congrArg _ (sendWordStep_clock a ⟨m, by omega⟩ w s hm hodd))
  · exact (execSendWord_word hseq).trans (congrArg _ (sendWordStep_last a 32 w s (by decide)))

/-- Settles O38, row by row. -/
theorem latchMicroSteps : Obligations.LatchMicroSteps := by
  refine ⟨fun s hseq => execLatch_prelatch hseq, fun s p hp hseq => ?_, fun s hseq => ?_⟩
  · exact (execLatch_latch hseq).trans (congrArg _ (latchStep_pulse ⟨p, by omega⟩ s hp))
  · exact (execLatch_latch hseq).trans (congrArg _ (latchStep_last 7 s (by decide)))

/-! ### Where the micro-operations stop -/

theorem execSendWord_notSequenced {s : State} (h : microOperation s.seq ≠ some .sendWord) :
    execSendWord s = .refused .notSequenced := by
  unfold execSendWord
  split <;> simp_all [microOperation]

theorem execLatch_notSequenced {s : State} (h : microOperation s.seq ≠ some .latch) :
    execLatch s = .refused .notSequenced := by
  unfold execLatch
  split <;> simp_all [microOperation]

/-- SEND_WORD faults only on entry at an address outside CHAIN (20_memory.md R31). -/
theorem execSendWord_fault {s : State} {r : Fault} (h : execSendWord s = .fault r) :
    ∃ a, s.seq = .gap a ∧ ¬ s.inChain a ∧ r = .noSuchWord a := by
  unfold execSendWord at h
  split at h
  case h_1 a hseq =>
    split at h
    · cases h
    · cases h
      exact ⟨a, hseq, ‹_›, rfl⟩
  all_goals cases h

theorem execLatch_not_fault (s : State) (r : Fault) : execLatch s ≠ .fault r := by
  unfold execLatch
  split <;> nofun

/-- Every fault is SEND_WORD's. -/
theorem exec_fault {i : Instr} {s : State} {r : Fault} (h : exec i s = .fault r) :
    ∃ a, i = .sendWord ∧ s.seq = .gap a ∧ ¬ s.inChain a ∧ r = .noSuchWord a := by
  cases i with
  | cmdRawSet _ => exact absurd h (takeInIdle_not_fault _ _ r)
  | cmdSet _ => exact absurd h (takeInIdle_not_fault _ _ r)
  | dataRawSet _ _ => exact absurd h (takeInIdle_not_fault _ _ r)
  | dataSet _ _ => exact absurd h (takeInIdle_not_fault _ _ r)
  | refresh => exact absurd h (takeInIdle_not_fault _ _ r)
  | sendWord =>
    obtain ⟨a, hseq, ha, hr⟩ := execSendWord_fault h
    exact ⟨a, rfl, hseq, ha, hr⟩
  | latch => exact absurd h (execLatch_not_fault s r)

/-- Settles O39: `execSendWord_notSequenced`, `execLatch_notSequenced` and `exec_fault`. -/
theorem microOperationsRunOnlyWhereSequenced : Obligations.MicroOperationsRunOnlyWhereSequenced :=
  ⟨fun _ => execSendWord_notSequenced, fun _ => execLatch_notSequenced, fun _ _ _ => exec_fault⟩

/-! ### Pin writes (10_state.md R20, R24) -/

theorem dataEdge_eq (a b : Level) : dataEdge a b = if b = a then [] else [if b then .dUp else .dDown] := by
  cases a <;> cases b <;> rfl

theorem clockEdge_eq (a b : Level) : clockEdge a b = if b = a then [] else [if b then .cUp else .cDown] := by
  cases a <;> cases b <;> rfl

/-- Settles O40: the events of a write are `dataEdge` and `clockEdge`. -/
theorem pinWriteIsAnEdgeExactlyIfTheLevelChanges : Obligations.PinWriteIsAnEdgeExactlyIfTheLevelChanges := by
  refine ⟨fun s b => ⟨dataEdge s.di b, rfl, fun h => ?_, fun h => ?_⟩,
    fun s b => ⟨clockEdge s.dcki b, rfl, fun h => ?_, fun h => ?_⟩⟩
  · rw [dataEdge_eq, if_pos h]
  · rw [dataEdge_eq, if_neg h]
  · rw [clockEdge_eq, if_pos h]
  · rw [clockEdge_eq, if_neg h]

theorem dataEdge_length_le (a b : Level) : (dataEdge a b).length ≤ 1 := by
  cases a <;> cases b <;> decide

theorem clockEdge_length_le (a b : Level) : (clockEdge a b).length ≤ 1 := by
  cases a <;> cases b <;> decide

/-- A transition of the table appends at most one event, and one only inside the primitives. -/
theorem MicroStep.trace_eq {s t : State} (h : MicroStep s t) :
    ∃ es, t.trace = s.trace ++ es ∧ es.length ≤ 1 ∧ (es ≠ [] → criticalAt s.seq = true) := by
  cases h with
  | enterWord a hseq ha => exact ⟨[], (List.append_nil _).symm, Nat.zero_le 1, (absurd rfl ·)⟩
  | data a m w hseq hm heven => exact ⟨_, rfl, dataEdge_length_le _ _, fun _ => by rw [hseq, criticalAt]⟩
  | clock a m w hseq hm hodd => exact ⟨_, rfl, clockEdge_length_le _ _, fun _ => by rw [hseq, criticalAt]⟩
  | closeWord a m w hseq hm => exact ⟨_, rfl, dataEdge_length_le _ _, fun _ => by rw [hseq, criticalAt]⟩
  | enterLatch hseq => exact ⟨[], (List.append_nil _).symm, Nat.zero_le 1, (absurd rfl ·)⟩
  | pulse p hseq hp => exact ⟨_, rfl, dataEdge_length_le _ _, fun _ => by rw [hseq, criticalAt]⟩
  | closeLatch p hseq hp => exact ⟨_, rfl, dataEdge_length_le _ _, fun _ => by rw [hseq, criticalAt]⟩

/-- Settles O54: in IDLE a step appends nothing, outside it `MicroStep.trace_eq`. -/
theorem stepAppendsAtMostOneEvent : Obligations.StepAppendsAtMostOneEvent := by
  intro s t h
  by_cases hs : s.seq = .idle
  · obtain ⟨-, -, htrace, -⟩ := step_idle_keeps_wire hs h
    exact ⟨[], by rw [htrace, List.append_nil], Nat.zero_le 1, (absurd rfl ·)⟩
  · exact (microStep_of_step hs h).2.trace_eq

/-- Settles O13: the state after construction by its fields, and State.reset as one of them. -/
theorem constructionGivesTheResetState : Obligations.ConstructionGivesTheResetState :=
  ⟨fun p n h1 hmax => ⟨State.initial p n, construct_inRange p h1 hmax, rfl, rfl, fun _ => rfl, fun _ _ => rfl, rfl, rfl, rfl, rfl,
    rfl⟩, construct_inRange defaultParams (Nat.le_refl 1) (Nat.le_add_left 1 _)⟩

end Sys2Proof.Machine
end

/-! ## Proofs: the invariant and progress (10_state.md sections 2, 4, 5; 60_exceptions.md; 41_refresh.md) -/

section
namespace Sys2Proof.Machine

/-! ### The lines and CRIT at the sequencer position (10_state.md R21 to R23) -/

/-- The lines and CRIT have the levels of the sequencer position. -/
structure WireAtPosition (s : State) : Prop where
  dataLine : s.di = dataLevelAt s.seq
  clockLine : s.dcki = clockLevelAt s.seq
  critical : s.crit = criticalAt s.seq

theorem dataLevelAt_afterWord (n a : Nat) : dataLevelAt (afterWord n a) = false := by
  unfold afterWord
  split <;> rfl

theorem clockLevelAt_afterWord (n a : Nat) : clockLevelAt (afterWord n a) = false := by
  unfold afterWord
  split <;> rfl

theorem criticalAt_afterWord (n a : Nat) : criticalAt (afterWord n a) = false := by
  unfold afterWord
  split <;> rfl

/-- A transition of the table takes CRIT from the level of one position to that of the next. -/
theorem MicroStep.keeps_critical {s t : State} (h : MicroStep s t) (hcrit : s.crit = criticalAt s.seq) :
    t.crit = criticalAt t.seq := by
  cases h with
  | enterWord a hseq ha => rfl
  | data a m w hseq hm heven => rw [hseq] at hcrit; exact hcrit
  | clock a m w hseq hm hodd => rw [hseq] at hcrit; exact hcrit
  | closeWord a m w hseq hm => exact (criticalAt_afterWord ..).symm
  | enterLatch hseq => rfl
  | pulse p hseq hp => rw [hseq] at hcrit; exact hcrit
  | closeLatch p hseq hp => rfl

/-- A transition of the table takes the data line from the level of one position to that of the next. -/
theorem MicroStep.keeps_dataLine {s t : State} (h : MicroStep s t) (hdi : s.di = dataLevelAt s.seq) :
    t.di = dataLevelAt t.seq := by
  cases h with
  | enterWord a hseq ha => rw [hseq] at hdi; exact hdi
  | data a m w hseq hm heven => simp [dataLevelAt]
  | clock a m w hseq hm hodd =>
    have hhalf : (m.val - 1) / 2 = m.val / 2 := by omega
    have hpos : m.val ≠ 0 := by omega
    rw [hseq] at hdi
    simpa [dataLevelAt, hhalf, hpos] using hdi
  | closeWord a m w hseq hm => exact (dataLevelAt_afterWord ..).symm
  | enterLatch hseq => rw [hseq] at hdi; exact hdi
  | pulse p hseq hp =>
    have hparity : p.val % 2 = 0 ↔ (p.val + 1) % 2 = 1 := by omega
    simp [dataLevelAt, hparity]
  | closeLatch p hseq hp => rfl

/-- A transition of the table takes the clock line from the level of one position to that of the next. -/
theorem MicroStep.keeps_clockLine {s t : State} (h : MicroStep s t) (hdcki : s.dcki = clockLevelAt s.seq) :
    t.dcki = clockLevelAt t.seq := by
  cases h with
  | enterWord a hseq ha => rw [hseq] at hdcki; exact hdcki
  | data a m w hseq hm heven =>
    have hhalf : (m.val + 1) / 2 = m.val / 2 := by omega
    rw [hseq] at hdcki
    simpa [clockLevelAt, hhalf] using hdcki
  | clock a m w hseq hm hodd =>
    have hlevel : (m.val + 1) / 2 % 2 = 1 ↔ m.val % 4 = 1 := by omega
    simp [clockLevelAt, hlevel]
  | closeWord a m w hseq hm =>
    rw [hseq, clockLevelAt, hm] at hdcki
    exact hdcki.trans (clockLevelAt_afterWord ..).symm
  | enterLatch hseq => rw [hseq] at hdcki; exact hdcki
  | pulse p hseq hp => rw [hseq] at hdcki; exact hdcki
  | closeLatch p hseq hp => rw [hseq] at hdcki; exact hdcki

theorem MicroStep.keeps_wireAtPosition {s t : State} (h : MicroStep s t) (hw : WireAtPosition s) : WireAtPosition t :=
  ⟨h.keeps_dataLine hw.dataLine, h.keeps_clockLine hw.clockLine, h.keeps_critical hw.critical⟩

/-- Every step keeps the lines and CRIT at the levels of the sequencer position. -/
theorem step_keeps_wireAtPosition {s t : State} (hw : WireAtPosition s) (h : step s = .next t) : WireAtPosition t := by
  by_cases hs : s.seq = .idle
  · obtain ⟨hdi, hdcki, hcrit⟩ := hw
    rw [hs] at hdi hdcki hcrit
    obtain ⟨u, port, script, draws, rfl, ⟨c, rfl⟩ | ⟨idx, vs, -, rfl⟩ | rfl | rfl⟩ := step_idle_cases hs h
    case inr.inr.inl => exact ⟨hdi, hdcki, hcrit⟩
    all_goals exact ⟨hdi.trans (by simp [hs]), hdcki.trans (by simp [hs]), hcrit.trans (by simp [hs])⟩
  · exact (microStep_of_step hs h).2.keeps_wireAtPosition hw

/-- What every step keeps holds at the end of every run. -/
theorem steps_induction {P : State → Prop} (hstep : ∀ s t, P s → step s = .next t → P t) {k : Nat} {s t : State}
    (hs : P s) (h : steps k s = .next t) : P t := by
  induction k generalizing s with
  | zero =>
    cases h
    exact hs
  | succ k ih =>
    rw [steps] at h
    split at h
    · rename_i u hu
      exact ih (hstep s u hs hu) h
    · cases h
    · cases h

/-- Settles O57: the levels of the position hold after construction and every step keeps them. -/
theorem everyRunKeepsTheLinesAndCrit : Obligations.EveryRunKeepsTheLinesAndCrit := by
  intro p n k rs s _ _ h
  have hinit : WireAtPosition { State.initial p n with script := rs } := ⟨rfl, rfl, rfl⟩
  obtain ⟨hdi, hdcki, hcrit⟩ := steps_induction (fun _ _ => step_keeps_wireAtPosition) hinit h
  refine ⟨fun hout => ?_, hcrit⟩
  rw [hdi, hdcki]
  cases hseq : s.seq <;> simp_all [criticalAt, dataLevelAt, clockLevelAt]

/-! ### The levels are those of the trace (10_state.md R24) -/

/-- The lines have the levels the trace leaves. -/
def WireOfTrace (s : State) : Prop :=
  s.di = dataLevelFrom false s.trace ∧ s.dcki = clockLevelFrom false s.trace

theorem WireOfTrace.setDI {s : State} (h : WireOfTrace s) (b : Level) : WireOfTrace (s.setDI b) := by
  obtain ⟨hdi, hdcki⟩ := h
  constructor
  · rw [State.setDI_trace, dataLevelFrom_append, ← hdi, dataLevelFrom_dataEdge, State.setDI_di]
  · rw [State.setDI_trace, clockLevelFrom_append, ← hdcki, clockLevelFrom_dataEdge, State.setDI_dcki]

theorem WireOfTrace.setDCKI {s : State} (h : WireOfTrace s) (b : Level) : WireOfTrace (s.setDCKI b) := by
  obtain ⟨hdi, hdcki⟩ := h
  constructor
  · rw [State.setDCKI_trace, dataLevelFrom_append, ← hdi, dataLevelFrom_clockEdge, State.setDCKI_di]
  · rw [State.setDCKI_trace, clockLevelFrom_append, ← hdcki, clockLevelFrom_clockEdge, State.setDCKI_dcki]

theorem MicroStep.keeps_wireOfTrace {s t : State} (h : MicroStep s t) (hw : WireOfTrace s) : WireOfTrace t := by
  cases h with
  | enterWord a hseq ha => exact hw
  | data a m w hseq hm heven => exact hw.setDI _
  | clock a m w hseq hm hodd => exact hw.setDCKI _
  | closeWord a m w hseq hm => exact hw.setDI _
  | enterLatch hseq => exact hw
  | pulse p hseq hp => exact hw.setDI _
  | closeLatch p hseq hp => exact hw.setDI _

/-! ### The sequencer position (10_state.md R23, 20_memory.md R42) -/

theorem seqInRange_goto_afterWord (s : State) (a : Nat) : seqInRange (s.goto (afterWord s.n a)) := by
  unfold afterWord
  split
  · assumption
  · trivial

theorem seqInRange_word {s : State} {a : Nat} {m : Fin 33} {w : Word} (hr : seqInRange s) (hseq : s.seq = .word a m w) :
    s.inChain a ∧ w = s.memRead a := by
  simpa only [seqInRange, hseq] using hr

theorem seqInRange_gap {s : State} {a : Nat} (hr : seqInRange s) (hseq : s.seq = .gap a) : s.inChain a := by
  simpa only [seqInRange, hseq] using hr

theorem MicroStep.keeps_seqInRange {s t : State} (h : MicroStep s t) (hr : seqInRange s) : seqInRange t := by
  cases h with
  | enterWord a hseq ha => exact ⟨ha, rfl⟩
  | data a m w hseq hm heven => exact seqInRange_word (s := s) hr hseq
  | clock a m w hseq hm hodd => exact seqInRange_word (s := s) hr hseq
  | closeWord a m w hseq hm => exact seqInRange_goto_afterWord ((s.setDI false).setCRIT false) a
  | enterLatch hseq => trivial
  | pulse p hseq hp => trivial
  | closeLatch p hseq hp => trivial

/-! ### The parameters, the chain length and the buffer (10_state.md R12, R16, R18, R27) -/

/-- The part of the invariant that speaks of the parameters, the chain length and the buffer only. -/
structure BufferOk (s : State) : Prop where
  parametersMeet : paramsOk s.params = true
  canonical : s.chain.wf = true
  unusedZero : ∀ a, ¬ s.inChain a → s.memRead a = 0
  lengthInRange : 1 ≤ s.n ∧ s.n ≤ Config.nMax
  commandsEqual : broadcast s

/-- The invariant by its four parts. -/
theorem invariant_iff {s : State} :
    Invariant s ↔ BufferOk s ∧ seqInRange s ∧ WireAtPosition s ∧ WireOfTrace s :=
  ⟨fun h => ⟨⟨h.parametersMeet, h.canonical, h.unusedZero, h.lengthInRange, h.commandsEqual⟩, h.position,
      ⟨h.dataLine, h.clockLine, h.critical⟩, h.levelsOfTrace⟩,
    fun ⟨hb, hr, hw, ht⟩ => ⟨hb.parametersMeet, hb.canonical, hb.unusedZero, hb.lengthInRange, hb.commandsEqual, hr, hw.dataLine,
      hw.clockLine, hw.critical, ht⟩⟩

theorem BufferOk.congr {s t : State} (hparams : t.params = s.params) (hn : t.n = s.n) (hchain : t.chain = s.chain)
    (h : BufferOk s) : BufferOk t where
  parametersMeet := hparams ▸ h.parametersMeet
  canonical := hchain ▸ h.canonical
  unusedZero a ha := by
    rw [State.inChain, hn] at ha
    rw [State.memRead, hchain]
    exact h.unusedZero a ha
  lengthInRange := hn ▸ h.lengthInRange
  commandsEqual := broadcast_congr hn hchain h.commandsEqual

/-- The request input, the host's script and the draws are no part of it. -/
theorem BufferOk.withHost {s : State} (h : BufferOk s) (port : Option Request) (script : List Request) (draws : Nat) :
    BufferOk { s with port := port, script := script, draws := draws } :=
  ⟨h.parametersMeet, h.canonical, h.unusedZero, h.lengthInRange, h.commandsEqual⟩

theorem MicroStep.keeps_bufferOk {s t : State} (h : MicroStep s t) (hb : BufferOk s) : BufferOk t := by
  have hoff := h.offWire_eq
  simp only [State.offWire, Prod.mk.injEq] at hoff
  obtain ⟨hparams, hn, hchain, -⟩ := hoff
  exact hb.congr hparams hn hchain

/-- A write of the commands stays inside the slots of the chain. -/
theorem BufferOk.setCommands {s : State} (h : BufferOk s) (c : Word) : BufferOk (s.setCommands c) where
  parametersMeet := h.parametersMeet
  canonical := State.wf_setCommands h.canonical c
  unusedZero a ha := by
    have ha : ¬ a < 13 * s.n := ha
    rw [State.memRead_setCommands_other s c (by omega)]
    exact h.unusedZero a ha
  lengthInRange := h.lengthInRange
  commandsEqual := broadcast_setCommands h.canonical c 0

/-- A write of twelve entries to a slot of the chain stays inside it. -/
theorem BufferOk.setSlot {s : State} (h : BufferOk s) (idx : Int) {vs : List Word} (hvs : vs.length = 12) :
    BufferOk (s.setSlot (slotOf s.n idx) vs) where
  parametersMeet := h.parametersMeet
  canonical := State.wf_setSlot h.canonical _ vs
  unusedZero a ha := by
    have ha : ¬ a < 13 * s.n := ha
    have hslot := slotOf_lt h.lengthInRange.1 idx
    rw [State.memRead_setSlot_other s _ vs (by omega)]
    exact h.unusedZero a ha
  lengthInRange := h.lengthInRange
  commandsEqual := broadcast_setSlot h.commandsEqual _ hvs 0

/-! ### The invariant -/

/-- In IDLE a step that keeps the buffer part keeps the invariant. -/
theorem step_idle_keeps_bufferOk {s t : State} (hs : s.seq = .idle) (hb : BufferOk s) (h : step s = .next t) : BufferOk t := by
  obtain ⟨u, port, script, draws, rfl, ⟨c, rfl⟩ | ⟨idx, vs, hvs, rfl⟩ | rfl | rfl⟩ := step_idle_cases hs h
  · exact (hb.setCommands c).withHost _ _ _
  · exact (hb.setSlot idx hvs).withHost _ _ _
  · exact (BufferOk.congr (s := s) (t := s.goto (.gap 0)) rfl rfl rfl hb).withHost _ _ _
  · exact hb.withHost _ _ _

theorem step_idle_keeps_seqInRange {s t : State} (hs : s.seq = .idle) (hn : 1 ≤ s.n) (h : step s = .next t) : seqInRange t := by
  obtain ⟨u, port, script, draws, rfl, ⟨c, rfl⟩ | ⟨idx, vs, hvs, rfl⟩ | rfl | rfl⟩ := step_idle_cases hs h
  case inr.inr.inl =>
    show 0 < 13 * s.n
    omega
  all_goals simp [seqInRange, hs]

/-- Settles O55: each part of the invariant is kept, in IDLE and by every transition of the table. -/
theorem stepKeepsTheInvariant : Obligations.StepKeepsTheInvariant := by
  intro s t hinv h
  obtain ⟨hb, hr, hw, htrace⟩ := invariant_iff.1 hinv
  refine invariant_iff.2 ?_
  by_cases hs : s.seq = .idle
  · obtain ⟨hdi, hdcki, htr, -⟩ := step_idle_keeps_wire hs h
    refine ⟨step_idle_keeps_bufferOk hs hb h, step_idle_keeps_seqInRange hs hb.lengthInRange.1 h,
      step_keeps_wireAtPosition hw h, ?_⟩
    rwa [WireOfTrace, hdi, hdcki, htr]
  · have hm := (microStep_of_step hs h).2
    exact ⟨hm.keeps_bufferOk hb, hm.keeps_seqInRange hr, hm.keeps_wireAtPosition hw, hm.keeps_wireOfTrace htrace⟩

/-- The state after a construction meets the invariant. -/
theorem invariant_initial {p : Params} {n : Nat} (hp : paramsOk p = true) (h1 : 1 ≤ n) (hmax : n ≤ Config.nMax) :
    Invariant (State.initial p n) :=
  ⟨hp, rfl, fun _ _ => rfl, ⟨h1, hmax⟩, fun _ _ => rfl, trivial, rfl, rfl, rfl, ⟨rfl, rfl⟩⟩

/-- Settles O56: a construction that is not refused has its length in range. -/
theorem constructionMeetsTheInvariant : Obligations.ConstructionMeetsTheInvariant := by
  refine ⟨fun p n t hp h => ?_, invariant_initial (by decide) (Nat.le_refl 1) (Nat.le_add_left 1 _)⟩
  by_cases hn : 1 ≤ n ∧ n ≤ Config.nMax
  · rw [construct_inRange p hn.1 hn.2] at h
    cases h
    exact invariant_initial hp hn.1 hn.2
  · rw [construct_outOfRange p (by omega)] at h
    cases h

/-! ### No step faults (60_exceptions.md R140, R149) -/

/-- A step faults only where SEND_WORD would be entered at an address outside CHAIN. -/
theorem step_fault {s : State} {r : Fault} (h : step s = .fault r) : ∃ a, s.seq = .gap a ∧ ¬ s.inChain a := by
  cases hp : s.port with
  | some q =>
    cases hd : decodeRequest s.params.format q with
    | ok i =>
      rw [step_request hp hd] at h
      obtain ⟨a, hi, -⟩ := exec_fault h
      exact absurd hi (decodeRequest_ok_host hd).1
    | error e =>
      rw [step_nonRequest hp hd] at h
      cases h
  | none =>
    cases hm : microOperation s.seq with
    | some i =>
      rw [step_micro hp hm] at h
      obtain ⟨a, -, hseq, ha, -⟩ := exec_fault h
      exact ⟨a, hseq, ha⟩
    | none =>
      rw [step, currentOf, hp] at h
      simp only [hm] at h
      cases h

/-- With nothing presented a step from a sequencer position in range answers a next state. -/
theorem step_runs {s : State} (hr : seqInRange s) (hp : s.port = none) : ∃ t, step s = .next t := by
  cases hseq : s.seq with
  | idle => exact ⟨_, step_host hp hseq⟩
  | gap a => exact ⟨_, step_gap hp hseq (seqInRange_gap hr hseq)⟩
  | word a m w => exact ⟨_, step_word hp hseq⟩
  | prelatch => exact ⟨_, step_prelatch hp hseq⟩
  | latch p => exact ⟨_, step_latch hp hseq⟩

/-- Settles O58: the invariant keeps the address of GAP inside CHAIN. -/
theorem noStepFaults : Obligations.NoStepFaults := by
  refine ⟨fun s hinv r h => ?_, fun s hinv hp => step_runs hinv.position hp⟩
  obtain ⟨a, hseq, ha⟩ := step_fault h
  exact ha (seqInRange_gap hinv.position hseq)

/-! ### Progress -/

/-- A quantity that every step lowers by one while it is positive is 0 after as many steps as its value. -/
theorem steps_until_zero {P : State → Prop} {left : State → Nat}
    (hstep : ∀ s, P s → left s ≠ 0 → ∃ t, step s = .next t ∧ P t ∧ left s = left t + 1) {s : State} (hs : P s) :
    ∃ t, steps (left s) s = .next t ∧ P t ∧ left t = 0 := by
  induction hk : left s generalizing s with
  | zero => exact ⟨s, rfl, hs, hk⟩
  | succ k ih =>
    obtain ⟨t, ht, hPt, hleft⟩ := hstep s hs (by omega)
    rw [steps_succ_of_next ht]
    exact ih hPt (by omega)

/-- How many steps a critical section still takes. -/
def criticalStepsLeft : Seq → Nat
  | .idle => 0
  | .gap _ => 0
  | .word _ m _ => 33 - m.val
  | .prelatch => 0
  | .latch p => 8 - p.val

theorem criticalStepsLeft_eq_zero {q : Seq} (h : criticalStepsLeft q = 0) : criticalAt q = false := by
  cases q <;> simp_all [criticalStepsLeft, criticalAt] <;> omega

theorem criticalStepsLeft_le (q : Seq) : criticalStepsLeft q ≤ 33 := by
  cases q <;> simp only [criticalStepsLeft] <;> omega

theorem criticalStepsLeft_afterWord (n a : Nat) : criticalStepsLeft (afterWord n a) = 0 := by
  unfold afterWord
  split <;> rfl

theorem MicroStep.criticalStepsLeft_eq {s t : State} (h : MicroStep s t) (hc : criticalStepsLeft s.seq ≠ 0) :
    criticalStepsLeft s.seq = criticalStepsLeft t.seq + 1 := by
  cases h with
  | enterWord a hseq ha => exact absurd (congrArg criticalStepsLeft hseq) hc
  | data a m w hseq hm heven => simp only [hseq, criticalStepsLeft, State.goto_seq]; omega
  | clock a m w hseq hm hodd => simp only [hseq, criticalStepsLeft, State.goto_seq]; omega
  | closeWord a m w hseq hm => rw [State.goto_seq, criticalStepsLeft_afterWord, hseq, criticalStepsLeft, hm]
  | enterLatch hseq => exact absurd (congrArg criticalStepsLeft hseq) hc
  | pulse p hseq hp => simp only [hseq, criticalStepsLeft, State.goto_seq]; omega
  | closeLatch p hseq hp => simp [hseq, criticalStepsLeft, hp]

/-- How many steps a REFRESH still takes (41_refresh.md R103). -/
def refreshStepsLeft (n : Nat) : Seq → Nat
  | .idle => 0
  | .gap a => 34 * (13 * n - a) + 9
  | .word a m _ => 33 - m.val + 34 * (13 * n - (a + 1)) + 9
  | .prelatch => 9
  | .latch p => 8 - p.val

theorem refreshStepsLeft_eq_zero {n : Nat} {q : Seq} (h : refreshStepsLeft n q = 0) : q = .idle := by
  cases q <;> simp_all [refreshStepsLeft]; omega

theorem refreshStepsLeft_idle {n : Nat} {q : Seq} (h : refreshStepsLeft n q ≠ 0) : q ≠ .idle := by
  rintro rfl
  exact h rfl

theorem refreshStepsLeft_lt {s : State} (hr : seqInRange s) : refreshStepsLeft s.n s.seq < refreshSteps s.n := by
  rw [refreshSteps]
  cases hseq : s.seq with
  | idle => rw [refreshStepsLeft]; omega
  | gap a => rw [refreshStepsLeft]; omega
  | word a m w =>
    have ha : a < 13 * s.n := (seqInRange_word hr hseq).1
    rw [refreshStepsLeft]
    omega
  | prelatch => rw [refreshStepsLeft]; omega
  | latch p => rw [refreshStepsLeft]; omega

theorem refreshStepsLeft_afterWord {n a : Nat} (ha : a < 13 * n) :
    refreshStepsLeft n (afterWord n a) = 34 * (13 * n - (a + 1)) + 9 := by
  unfold afterWord
  split
  · rfl
  · rw [refreshStepsLeft]
    omega

theorem MicroStep.refreshStepsLeft_eq {s t : State} (h : MicroStep s t) (hr : seqInRange s) :
    refreshStepsLeft s.n s.seq = refreshStepsLeft s.n t.seq + 1 := by
  cases h with
  | enterWord a hseq ha =>
    have ha : a < 13 * s.n := ha
    simp only [hseq, refreshStepsLeft, State.goto_seq, Fin.val_zero]
    omega
  | data a m w hseq hm heven => simp only [hseq, refreshStepsLeft, State.goto_seq]; omega
  | clock a m w hseq hm hodd => simp only [hseq, refreshStepsLeft, State.goto_seq]; omega
  | closeWord a m w hseq hm =>
    rw [State.goto_seq, refreshStepsLeft_afterWord (seqInRange_word hr hseq).1, hseq, refreshStepsLeft]
    omega
  | enterLatch hseq => rw [hseq]; rfl
  | pulse p hseq hp => simp only [hseq, refreshStepsLeft, State.goto_seq]; omega
  | closeLatch p hseq hp => rw [hseq, refreshStepsLeft, hp]; rfl

/-- A state of a REFRESH with nothing presented, its buffer `c`. -/
structure InRefreshOf (n : Nat) (c : Memory) (s : State) : Prop where
  position : seqInRange s
  notPresented : s.port = none
  length : s.n = n
  buffer : s.chain = c

/-- With nothing presented a step outside IDLE is a transition of the table that leaves the buffer alone. -/
theorem exists_microStep {n : Nat} {c : Memory} {s : State} (h : InRefreshOf n c s) (hs : s.seq ≠ .idle) :
    ∃ t, step s = .next t ∧ MicroStep s t ∧ InRefreshOf n c t := by
  obtain ⟨hr, hp, hn, hc⟩ := h
  obtain ⟨t, ht⟩ := step_runs hr hp
  have hm := (microStep_of_step hs ht).2
  obtain ⟨hchain, hlen, -, hport, -⟩ := transmitterLeavesTheBuffer s t hs ht
  exact ⟨t, ht, hm, hm.keeps_seqInRange hr, hport.trans hp, hlen.trans hn, hchain.trans hc⟩

/-- Settles O59: the steps a critical section still takes are at most 33, and each step leaves one fewer. -/
theorem critIsReleasedWithinThirtyThreeSteps : Obligations.CritIsReleasedWithinThirtyThreeSteps := by
  intro s hinv hp _
  obtain ⟨t, ht, ⟨htinv, -⟩, hzero⟩ := steps_until_zero (P := fun u => Invariant u ∧ u.port = none)
    (left := fun u => criticalStepsLeft u.seq)
    (fun u ⟨huinv, hup⟩ hleft => by
      obtain ⟨v, hv⟩ := step_runs huinv.position hup
      have hu : u.seq ≠ .idle := fun hidle => hleft (congrArg criticalStepsLeft hidle)
      obtain ⟨-, -, -, hport, -⟩ := transmitterLeavesTheBuffer u v hu hv
      exact ⟨v, hv, ⟨stepKeepsTheInvariant u v huinv hv, hport.trans hup⟩,
        (microStep_of_step hu hv).2.criticalStepsLeft_eq hleft⟩)
    (s := s) ⟨hinv, hp⟩
  exact ⟨_, t, criticalStepsLeft_le _, ht, htinv.critical.trans (criticalStepsLeft_eq_zero hzero)⟩

/-- Settles O60: the steps a REFRESH still takes are fewer than those of a whole one, and each step leaves one fewer. -/
theorem everyRefreshEnds : Obligations.EveryRefreshEnds := by
  intro s hinv hp hs
  obtain ⟨t, ht, hin, hzero⟩ := steps_until_zero (P := InRefreshOf s.n s.chain) (left := fun u => refreshStepsLeft s.n u.seq)
    (fun u hu hleft => by
      obtain ⟨v, hv, hm, hin⟩ := exists_microStep hu (refreshStepsLeft_idle hleft)
      exact ⟨v, hv, hin, hu.length ▸ hm.refreshStepsLeft_eq hu.position⟩)
    (s := s) ⟨hinv.position, hp, rfl, rfl⟩
  exact ⟨_, t, refreshStepsLeft_lt hinv.position, ht, refreshStepsLeft_eq_zero hzero, hin.buffer⟩

end Sys2Proof.Machine
end

/-! ## Proofs: the edges of a word and of a chain frame (40_transmit_primitives.md R83, R84; 41_refresh.md R101, R107) -/

section
namespace Sys2Proof.Machine

/-! ### What is observed along the edges of given bits -/

theorem dataLevelFrom_clockEventAt (d : Level) (i : Nat) (t : List Event) :
    dataLevelFrom d (clockEventAt i :: t) = dataLevelFrom d t := by
  unfold clockEventAt
  split <;> rfl

theorem clockLevelFrom_clockEventAt (c : Level) (i : Nat) (t : List Event) :
    clockLevelFrom c (clockEventAt i :: t) = clockLevelFrom (decide (i % 2 = 1)) t := by
  unfold clockEventAt
  split <;> simp_all [clockLevelFrom]

theorem sampledFrom_clockEventAt (d : Level) (i : Nat) (t : List Event) :
    sampledFrom d (clockEventAt i :: t) = d :: sampledFrom d t := by
  unfold clockEventAt
  split <;> rfl

@[simp] theorem isClock_clockEventAt (i : Nat) : isClock (clockEventAt i) = true := by
  unfold clockEventAt
  split <;> rfl

@[simp] theorem isData_clockEventAt (i : Nat) : isData (clockEventAt i) = false := by
  rw [isData, isClock_clockEventAt, Bool.not_true]

theorem filter_isClock_dataEdge (a b : Level) : (dataEdge a b).filter isClock = [] := by
  cases a <;> cases b <;> rfl

theorem countP_isData_dataEdge (a b : Level) : (dataEdge a b).countP isData = if a = b then 0 else 1 := by
  cases a <;> cases b <;> rfl

/-- The clock level after the edges of the bits of the given indices, from level `c` (30_encoding.md R63). -/
def lastClock (c : Level) (is : List Nat) : Level := is.foldl (fun _ i => decide (i % 2 = 1)) c

/-- The edges of given bits leave the data line low. -/
theorem dataLevelFrom_edgesFrom (w : Word) (d : Level) (is : List Nat) : dataLevelFrom d (edgesFrom w d is) = false := by
  induction is generalizing d with
  | nil => exact dataLevelFrom_dataEdge d false
  | cons i is ih => rw [edgesFrom, dataLevelFrom_append, dataLevelFrom_dataEdge, dataLevelFrom_clockEventAt, ih]

theorem clockLevelFrom_edgesFrom (w : Word) (d c : Level) (is : List Nat) :
    clockLevelFrom c (edgesFrom w d is) = lastClock c is := by
  induction is generalizing d c with
  | nil => exact clockLevelFrom_dataEdge c d false
  | cons i is ih =>
    rw [edgesFrom, clockLevelFrom_append, clockLevelFrom_dataEdge, clockLevelFrom_clockEventAt, ih]
    rfl

/-- A receiver that samples at the clock edges reads the bits. -/
theorem sampledFrom_edgesFrom (w : Word) (d : Level) (is : List Nat) :
    sampledFrom d (edgesFrom w d is) = is.map fun i => w.getLsbD i := by
  induction is generalizing d with
  | nil => exact sampledFrom_dataEdge d d false
  | cons i is ih =>
    rw [edgesFrom, sampledFrom_append, sampledFrom_dataEdge, dataLevelFrom_dataEdge, sampledFrom_clockEventAt, ih]
    rfl

/-- The clock events are those of the bits, in order. -/
theorem filter_isClock_edgesFrom (w : Word) (d : Level) (is : List Nat) :
    (edgesFrom w d is).filter isClock = is.map clockEventAt := by
  induction is generalizing d with
  | nil => exact filter_isClock_dataEdge d false
  | cons i is ih =>
    rw [edgesFrom, List.filter_append, filter_isClock_dataEdge, List.filter_cons_of_pos (isClock_clockEventAt i), ih]
    rfl

/-- The data events are the level changes along the bits, between the level before and low. -/
theorem countP_isData_edgesFrom (w : Word) (d : Level) (is : List Nat) :
    (edgesFrom w d is).countP isData = levelChanges (d :: (is.map fun i => w.getLsbD i) ++ [false]) := by
  induction is generalizing d with
  | nil =>
    rw [edgesFrom, countP_isData_dataEdge]
    rfl
  | cons i is ih =>
    rw [edgesFrom, List.countP_append, countP_isData_dataEdge, List.countP_cons_of_neg (by simp), ih]
    rfl

theorem countP_isClock_add_countP_isData (t : List Event) : t.countP isClock + t.countP isData = t.length :=
  calc t.countP isClock + t.countP isData
    _ = t.countP isClock + t.countP fun e => ¬ isClock e :=
      congrArg (_ + List.countP · t) (funext fun e => by simp [isData])
    _ = t.length := (List.length_eq_countP_add_countP isClock).symm

/-! ### Level changes -/

/-- Between two levels the line changes an odd number of times exactly if they differ. -/
theorem levelChanges_parity (a b : Level) (l : List Level) :
    levelChanges (a :: l ++ [b]) % 2 = if a = b then 0 else 1 := by
  induction l generalizing a with
  | nil =>
    show ((if a = b then 0 else 1) + 0) % 2 = _
    split <;> rfl
  | cons c l ih =>
    show ((if a = c then 0 else 1) + levelChanges (c :: l ++ [b])) % 2 = _
    have := ih c
    cases a <;> cases b <;> cases c <;> simp_all <;> omega

/-- The line changes at most once between two levels of the list. -/
theorem levelChanges_le (a : Level) (l : List Level) : levelChanges (a :: l) ≤ l.length := by
  induction l generalizing a with
  | nil => exact Nat.le_refl 0
  | cons b l ih =>
    have hstep : (if a = b then 0 else 1) ≤ 1 := by split <;> omega
    have := ih b
    rw [levelChanges, List.length_cons]
    omega

/-! ### The edges of a word -/

theorem clockLevelFrom_edges (w : Word) : clockLevelFrom false (edges w) = false :=
  clockLevelFrom_edgesFrom w false false bitIndices

theorem dataLevelFrom_edges (w : Word) : dataLevelFrom false (edges w) = false :=
  dataLevelFrom_edgesFrom w false bitIndices

theorem sampled_edges (w : Word) : sampled (edges w) = wordBits w :=
  sampledFrom_edgesFrom w false bitIndices

theorem filter_isClock_edges (w : Word) : (edges w).filter isClock = (List.replicate 8 [Event.cUp, Event.cDown]).flatten :=
  filter_isClock_edgesFrom w false bitIndices

theorem countP_isClock_edges (w : Word) : (edges w).countP isClock = 16 := by
  rw [List.countP_eq_length_filter, filter_isClock_edges]
  rfl

theorem countP_isData_edges (w : Word) : (edges w).countP isData = levelChanges (false :: wordBits w ++ [false]) :=
  countP_isData_edgesFrom w false bitIndices

theorem countP_isData_edges_even (w : Word) : (edges w).countP isData % 2 = 0 := by
  rw [countP_isData_edges, levelChanges_parity]
  rfl

/-- Sixteen bits between two lows change the line seventeen times at most, and an even number of times. -/
theorem countP_isData_edges_le (w : Word) : (edges w).countP isData ≤ 16 := by
  have hle : levelChanges (false :: wordBits w ++ [false]) ≤ 17 := levelChanges_le false (wordBits w ++ [false])
  have heven := countP_isData_edges_even w
  rw [countP_isData_edges] at heven ⊢
  omega

/-- Settles O43: `sampled_edges` and the levels the closing edges leave. -/
theorem sampledEdgesAreTheBitsOfTheWord : Obligations.SampledEdgesAreTheBitsOfTheWord :=
  fun w => ⟨sampled_edges w, dataLevelFrom_edges w, clockLevelFrom_edges w⟩

/-- Settles O44: the clock events are one a bit, the data events the level changes. -/
theorem edgeCountsOfAWord : Obligations.EdgeCountsOfAWord := by
  refine ⟨fun w => ?_, by decide, by decide, by decide⟩
  have hclock := countP_isClock_edges w
  have hdata := countP_isData_edges_le w
  have hlength := countP_isClock_add_countP_isData (edges w)
  exact ⟨hclock, countP_isData_edges w, countP_isData_edges_even w, hdata, by omega, by omega⟩

/-! ### The edges of a chain frame -/

theorem dataLevelFrom_flatMap_edges (ws : List Word) : dataLevelFrom false (ws.flatMap edges) = false := by
  induction ws with
  | nil => rfl
  | cons w ws ih => rw [List.flatMap_cons, dataLevelFrom_append, dataLevelFrom_edges, ih]

/-- A receiver reads the words of a chain frame bit by bit, and nothing from the latch symbol. -/
theorem sampled_frameEdges (ws : List Word) : sampled (frameEdges ws) = ws.flatMap wordBits := by
  have hwords : sampledFrom false (ws.flatMap edges) = ws.flatMap wordBits := by
    induction ws with
    | nil => rfl
    | cons w ws ih =>
      rw [List.flatMap_cons, sampledFrom_append, dataLevelFrom_edges, ih, List.flatMap_cons]
      exact congrArg (· ++ _) (sampled_edges w)
  rw [sampled, frameEdges, sampledFrom_append, hwords, dataLevelFrom_flatMap_edges]
  exact List.append_nil _

theorem length_flatMap_wordBits (ws : List Word) : (ws.flatMap wordBits).length = 16 * ws.length := by
  induction ws with
  | nil => rfl
  | cons w ws ih =>
    rw [List.flatMap_cons, List.length_append, ih, List.length_cons]
    show 16 + _ = _
    omega

theorem countP_isClock_frameEdges (ws : List Word) : (frameEdges ws).countP isClock = 16 * ws.length := by
  rw [frameEdges, List.countP_append]
  induction ws with
  | nil => rfl
  | cons w ws ih =>
    rw [List.flatMap_cons, List.countP_append, countP_isClock_edges, List.length_cons]
    omega

theorem countP_isData_flatMap_edges_le (ws : List Word) : (ws.flatMap edges).countP isData ≤ 16 * ws.length := by
  induction ws with
  | nil => exact Nat.le_refl 0
  | cons w ws ih =>
    have := countP_isData_edges_le w
    rw [List.flatMap_cons, List.countP_append, List.length_cons]
    omega

theorem countP_isData_frameEdges (ws : List Word) :
    (frameEdges ws).countP isData = (ws.flatMap edges).countP isData + 8 :=
  List.countP_append

/-! ### The words of a chain frame (30_encoding.md R62) -/

/-- Thirteen values a slot in ascending order are the values in ascending order. -/
theorem flatMap_range_slots {α : Type} (f : Nat → α) (n : Nat) :
    (List.range n).flatMap (fun i => (List.range 13).map fun k => f (13 * i + k)) = (List.range (13 * n)).map f := by
  induction n with
  | zero => rfl
  | succ n ih =>
    rw [List.range_succ (n := n), List.flatMap_append, ih, Nat.mul_succ, List.range_add, List.map_append, List.map_map,
      List.flatMap_singleton]
    rfl

theorem slotWords_eq (s : State) (i : Nat) : slotWords s i = (List.range 13).map fun k => s.memRead (13 * i + k) := rfl

theorem chainWords_eq (s : State) : chainWords s = (List.range (13 * s.n)).map s.memRead := by
  rw [← flatMap_range_slots, chainWords]
  exact congrArg (List.flatMap · _) (funext (slotWords_eq s))

@[simp] theorem length_chainWords (s : State) : (chainWords s).length = 13 * s.n := by
  rw [chainWords_eq, List.length_map, List.length_range]

/-- Settles O49: slot by slot and word by word is address by address. -/
theorem chainFrameIsAscendingAddressOrder : Obligations.ChainFrameIsAscendingAddressOrder :=
  fun s => ⟨chainWords_eq s, length_chainWords s⟩

/-- Settles O50: sixteen clock events and at most sixteen data events a word, eight data events the latch symbol. -/
theorem eventCountsOfAChainFrame : Obligations.EventCountsOfAChainFrame := by
  intro s
  have hclock := countP_isClock_frameEdges (chainWords s)
  have hdata := countP_isData_flatMap_edges_le (chainWords s)
  rw [length_chainWords] at hclock hdata
  rw [countP_isData_frameEdges]
  omega

end Sys2Proof.Machine
end

/-! ## Proofs: the latch symbol cannot arise inside data (40_transmit_primitives.md R90) -/

section
namespace Sys2Proof.Machine

/-! ### Stretches of data events -/

/-- No stretch without a clock event holds more than two data events, the first stretch at most `r`. -/
def DataRunsBounded : Nat → List Event → Prop
  | _, [] => True
  | r, e :: t => if isClock e then DataRunsBounded 2 t else 1 ≤ r ∧ DataRunsBounded (r - 1) t

theorem dataRunsBounded_clockEventAt (r i : Nat) (t : List Event) :
    DataRunsBounded r (clockEventAt i :: t) ↔ DataRunsBounded 2 t := by
  rw [DataRunsBounded, if_pos (isClock_clockEventAt i)]

theorem DataRunsBounded.mono {r r' : Nat} (hr : r ≤ r') {t : List Event} (h : DataRunsBounded r t) : DataRunsBounded r' t := by
  induction t generalizing r r' with
  | nil => trivial
  | cons e t ih =>
    rw [DataRunsBounded] at h ⊢
    split
    · rwa [if_pos ‹_›] at h
    · rw [if_neg ‹_›] at h
      exact ⟨h.1.trans hr, ih (by omega) h.2⟩

/-- One write of the data line adds at most one event to a stretch. -/
theorem DataRunsBounded.dataEdge_append {r : Nat} (a b : Level) {t : List Event} (h : DataRunsBounded r t) :
    DataRunsBounded (r + 1) (dataEdge a b ++ t) := by
  rw [dataEdge_eq]
  split
  · exact h.mono (Nat.le_succ r)
  · have hdata : isClock (if b = true then .dUp else .dDown) = false := by cases b <;> rfl
    rw [List.singleton_append, DataRunsBounded, if_neg (by simp [hdata])]
    exact ⟨by omega, h⟩

/-- What holds of a list holds of its end, the first stretch of the end being at most two events long. -/
theorem DataRunsBounded.of_append {r : Nat} (hr : r ≤ 2) (u : List Event) {t : List Event} (h : DataRunsBounded r (u ++ t)) :
    DataRunsBounded 2 t := by
  induction u generalizing r with
  | nil => exact h.mono hr
  | cons e u ih =>
    rw [List.cons_append, DataRunsBounded] at h
    split at h
    · exact ih (Nat.le_refl 2) h
    · exact ih (by omega) h.2

/-- A stretch at the start is as short as the bound says. -/
theorem DataRunsBounded.length_le {r : Nat} {l t : List Event} (hl : l.all isData = true) (h : DataRunsBounded r (l ++ t)) :
    l.length ≤ r := by
  induction l generalizing r with
  | nil => exact Nat.zero_le r
  | cons e l ih =>
    rw [List.all_cons, Bool.and_eq_true, isData, Bool.not_eq_true'] at hl
    rw [List.cons_append, DataRunsBounded, if_neg (by simp [hl.1])] at h
    have := ih hl.2 h.2
    rw [List.length_cons]
    omega

/-! ### The stretches in the edges of words -/

/-- After the first clock event of a word the data line is written at most twice before the clock event of the next word. -/
theorem dataRunsBounded_edgesFrom (w : Word) (d : Level) (is : List Nat) {t : List Event} (ht : DataRunsBounded 1 t) :
    DataRunsBounded 2 (edgesFrom w d is ++ t) := by
  induction is generalizing d with
  | nil => exact ht.dataEdge_append d false
  | cons i is ih =>
    rw [edgesFrom, List.append_assoc, List.cons_append]
    exact DataRunsBounded.dataEdge_append (r := 1) d _ ((dataRunsBounded_clockEventAt ..).2 (ih _))

/-- Before its first clock event a word writes the data line once. -/
theorem dataRunsBounded_flatMap_edges (ws : List Word) : DataRunsBounded 1 (ws.flatMap edges) := by
  induction ws with
  | nil => trivial
  | cons w ws ih =>
    rw [List.flatMap_cons, edges, bitIndices, edgesFrom, List.append_assoc, List.cons_append]
    exact DataRunsBounded.dataEdge_append (r := 0) false _
      ((dataRunsBounded_clockEventAt ..).2 (dataRunsBounded_edgesFrom w _ _ ih))

/-! ### After the last clock event -/

/-- The list is empty or ends in a clock event. -/
def EndsInClock (t : List Event) : Prop := t = [] ∨ ∃ e u, t = u ++ [e] ∧ isClock e = true

/-- What ends in a clock event does not end in data events. -/
theorem EndsInClock.eq_nil_of_append {t l : List Event} (h : EndsInClock (t ++ l)) (hl : l.all isData = true) : l = [] := by
  obtain rfl | ⟨l, x, rfl⟩ := List.eq_nil_or_concat l
  · rfl
  · obtain hnil | ⟨e, u, hu, he⟩ := h
    · simp at hnil
    · rw [List.concat_eq_append, ← List.append_assoc] at hu
      obtain rfl : x = e := by simpa using (List.append_inj' hu rfl).2
      simp [isData, he] at hl

/-- What stands after the last clock event of a list is one list. -/
theorem eq_of_append_eq_append {t l t' l' : List Event} (h : t ++ l = t' ++ l') (ht : EndsInClock t) (ht' : EndsInClock t')
    (hl : l.all isData = true) (hl' : l'.all isData = true) : l = l' := by
  obtain ⟨a, rfl, rfl⟩ | ⟨a, rfl, rfl⟩ := List.append_eq_append_iff.1 h
  · rw [List.all_append, Bool.and_eq_true] at hl
    rw [ht'.eq_nil_of_append hl.1, List.nil_append]
  · rw [List.all_append, Bool.and_eq_true] at hl'
    rw [ht.eq_nil_of_append hl'.1, List.nil_append]

/-- The edges of given bits are a list that ends in a clock event and the closing edge. -/
theorem edgesFrom_cons_eq_append (w : Word) (d : Level) (i : Nat) (is : List Nat) :
    ∃ u e b, edgesFrom w d (i :: is) = u ++ [e] ++ dataEdge b false ∧ isClock e = true := by
  induction is generalizing d i with
  | nil => exact ⟨dataEdge d (w.getLsbD i), clockEventAt i, w.getLsbD i, by simp [edgesFrom], isClock_clockEventAt i⟩
  | cons j is ih =>
    obtain ⟨u, e, b, hu, he⟩ := ih (w.getLsbD i) j
    refine ⟨dataEdge d (w.getLsbD i) ++ clockEventAt i :: u, e, b, ?_, he⟩
    rw [edgesFrom, hu]
    simp

/-- The edges of words are a list that ends in a clock event and at most one falling data event. -/
theorem flatMap_edges_eq_append (ws : List Word) :
    ∃ t b, ws.flatMap edges = t ++ dataEdge b false ∧ EndsInClock t := by
  obtain rfl | ⟨ws, w, rfl⟩ := List.eq_nil_or_concat ws
  · exact ⟨[], false, rfl, .inl rfl⟩
  · obtain ⟨u, e, b, hu, he⟩ := edgesFrom_cons_eq_append w false 15 [14, 13, 12, 11, 10, 9, 8, 7, 6, 5, 4, 3, 2, 1, 0]
    have hw : edges w = u ++ [e] ++ dataEdge b false := hu
    exact ⟨ws.flatMap edges ++ (u ++ [e]), b, by simp [hw], .inr ⟨e, ws.flatMap edges ++ u, by simp, he⟩⟩

/-- Settles O45: the stretches are bounded along the words, and after the last clock event stand a falling event at most and the
latch symbol. -/
theorem latchSymbolCannotAriseInData : Obligations.LatchSymbolCannotAriseInData := by
  refine ⟨fun ws l hinfix hl => ?stretch, fun ws t l hframe hl ht => ?latch⟩
  case stretch =>
    obtain ⟨u, v, huv⟩ := hinfix
    have h := dataRunsBounded_flatMap_edges ws
    rw [← huv, List.append_assoc] at h
    exact (h.of_append (by omega) u).length_le hl
  case latch =>
    obtain ⟨t', b, hwords, ht'⟩ := flatMap_edges_eq_append ws
    rw [frameEdges, hwords, List.append_assoc] at hframe
    have hdata : (dataEdge b false ++ latchSymbol).all isData = true := by cases b <;> decide
    rw [← eq_of_append_eq_append hframe ht' ht hdata hl]
    cases b <;> decide

end Sys2Proof.Machine
end

/-! ## Proofs: the two levels of SEND_WORD, LATCH and REFRESH agree (41_refresh.md R103, R104) -/

section
namespace Sys2Proof.Machine

/-! ### The operation level leaves the rest of the state and the sequencer position alone -/

@[simp] theorem offWire_setDI (s : State) (b : Level) : (s.setDI b).offWire = s.offWire := rfl

@[simp] theorem offWire_setDCKI (s : State) (b : Level) : (s.setDCKI b).offWire = s.offWire := rfl

@[simp] theorem offWire_setCRIT (s : State) (b : Bool) : (s.setCRIT b).offWire = s.offWire := rfl

@[simp] theorem offWire_goto (s : State) (q : Seq) : (s.goto q).offWire = s.offWire := rfl

theorem goto_seq_self (s : State) : s.goto s.seq = s := rfl

/-- The loop of SEND_WORD writes the lines only. -/
@[simp] theorem offWire_foldl_sendBit (w : Word) (s : State) (is : List Nat) :
    (is.foldl (sendBit w) s).offWire = s.offWire := by
  induction is generalizing s with
  | nil => rfl
  | cons i is ih => exact ih (sendBit w s i)

@[simp] theorem seq_foldl_sendBit (w : Word) (s : State) (is : List Nat) : (is.foldl (sendBit w) s).seq = s.seq := by
  induction is generalizing s with
  | nil => rfl
  | cons i is ih => exact ih (sendBit w s i)

@[simp] theorem offWire_sendWordOp (w : Word) (s : State) : (sendWordOp w s).offWire = s.offWire := by
  simp [sendWordOp]

@[simp] theorem seq_sendWordOp (w : Word) (s : State) : (sendWordOp w s).seq = s.seq := by
  simp [sendWordOp]

@[simp] theorem sendWordsOp_nil (s : State) : sendWordsOp [] s = s := rfl

@[simp] theorem sendWordsOp_cons (w : Word) (ws : List Word) (s : State) :
    sendWordsOp (w :: ws) s = sendWordsOp ws (sendWordOp w s) := List.foldl_cons ..

@[simp] theorem offWire_sendWordsOp (ws : List Word) (s : State) : (sendWordsOp ws s).offWire = s.offWire := by
  induction ws generalizing s with
  | nil => rfl
  | cons w ws ih => rw [sendWordsOp_cons, ih, offWire_sendWordOp]

@[simp] theorem seq_sendWordsOp (ws : List Word) (s : State) : (sendWordsOp ws s).seq = s.seq := by
  induction ws generalizing s with
  | nil => rfl
  | cons w ws ih => rw [sendWordsOp_cons, ih, seq_sendWordOp]

@[simp] theorem seq_latchOp (s : State) : (latchOp s).seq = s.seq := by
  simp [latchOp, latchPulse]

@[simp] theorem seq_refreshOp (s : State) : (refreshOp s).seq = s.seq := by
  simp [refreshOp]

/-! ### Fields from the part that is not the wire -/

theorem n_eq_of_offWire {s t : State} (h : t.offWire = s.offWire) : t.n = s.n :=
  congrArg (fun x => x.2.1) h

theorem memRead_eq_of_offWire {s t : State} (h : t.offWire = s.offWire) : t.memRead = s.memRead :=
  congrArg (fun x => x.2.2.1.read) h

theorem port_eq_of_offWire {s t : State} (h : t.offWire = s.offWire) : t.port = s.port :=
  congrArg (fun x => x.2.2.2.1) h

/-! ### SEND_WORD -/

theorem step_word_data {s : State} (hp : s.port = none) (a : Nat) {m m' : Fin 33} (w : Word) (hm' : m'.val = m.val + 1)
    (heven : m.val % 2 = 0) :
    step (s.goto (.word a m w)) = .next ((s.setDI (w.getLsbD (15 - m.val / 2))).goto (.word a m' w)) := by
  have hlt : m.val < 32 := by omega
  rw [show m' = ⟨m.val + 1, Nat.succ_lt_succ hlt⟩ from Fin.ext hm', step_word (s := s.goto (.word a m w)) hp rfl,
    sendWordStep_data a m w _ hlt heven]
  rfl

theorem step_word_clock {s : State} (hp : s.port = none) (a : Nat) {m m' : Fin 33} (w : Word) (hm' : m'.val = m.val + 1)
    (hodd : m.val % 2 = 1) :
    step (s.goto (.word a m w)) = .next ((s.setDCKI (decide (m.val % 4 = 1))).goto (.word a m' w)) := by
  have hlt : m.val < 32 := by omega
  rw [show m' = ⟨m.val + 1, Nat.succ_lt_succ hlt⟩ from Fin.ext hm', step_word (s := s.goto (.word a m w)) hp rfl,
    sendWordStep_clock a m w _ hlt hodd]
  rfl

/-- Two micro-steps of SEND_WORD are one pass of its loop. -/
theorem steps_sendBit {s : State} (hp : s.port = none) (a : Nat) {m m' : Fin 33} (w : Word) {j : Nat} (hm : m.val = 2 * j)
    (hm' : m'.val = 2 * j + 2) :
    steps 2 (s.goto (.word a m w)) = .next ((sendBit w s (15 - j)).goto (.word a m' w)) := by
  have hdata := step_word_data hp a (m := m) (m' := ⟨2 * j + 1, by omega⟩) w (by simp [hm]) (by omega)
  have hclock := step_word_clock (s := s.setDI (w.getLsbD (15 - m.val / 2))) hp a (m := ⟨2 * j + 1, by omega⟩) (m' := m') w hm'
    (by simp only; omega)
  have hindex : 15 - m.val / 2 = 15 - j := by omega
  have hparity : ((2 * j + 1) % 4 = 1) = ((15 - j) % 2 = 1) := propext (by omega)
  rw [show (2 : Nat) = 1 + 1 from rfl, steps_succ_of_next hdata, steps_one, hclock]
  simp only [hindex, hparity]
  rfl

theorem bitIndices_getElem? : ∀ j < 16, bitIndices[j]? = some (15 - j) := by decide

/-- The micro-steps of the first `j` bits are `j` passes of the loop. -/
theorem steps_sendBits {s : State} (hp : s.port = none) (a : Nat) (w : Word) {j : Nat} (hj : j ≤ 16) {m : Fin 33}
    (hm : m.val = 2 * j) :
    steps (2 * j) (s.goto (.word a 0 w)) = .next (((bitIndices.take j).foldl (sendBit w) s).goto (.word a m w)) := by
  induction j generalizing m with
  | zero =>
    obtain rfl : m = 0 := Fin.ext hm
    rfl
  | succ j ih =>
    have hport : ((bitIndices.take j).foldl (sendBit w) s).port = none :=
      (port_eq_of_offWire (offWire_foldl_sendBit ..)).trans hp
    have hbit := steps_sendBit hport a w (m := ⟨2 * j, by omega⟩) rfl hm
    rw [Nat.mul_succ, steps_add _ _ _ _ (ih (by omega) (m := ⟨2 * j, by omega⟩) rfl), hbit, List.take_add_one,
      bitIndices_getElem? j hj, List.foldl_append]
    rfl

/-- SEND_WORD from GAP at the event level is SEND_WORD at the operation level. -/
theorem steps_sendWord {s : State} {a : Nat} (hp : s.port = none) (ha : s.inChain a) :
    steps 34 (s.goto (.gap a)) = .next ((sendWordOp (s.memRead a) s).goto (afterWord s.n a)) := by
  let w := s.memRead a
  let u := bitIndices.foldl (sendBit w) (s.setCRIT true)
  have hu : u.offWire = s.offWire := offWire_foldl_sendBit w (s.setCRIT true) bitIndices
  have hentry : step (s.goto (.gap a)) = .next ((s.setCRIT true).goto (.word a 0 w)) := step_gap hp rfl ha
  have hloop : steps 32 ((s.setCRIT true).goto (.word a 0 w)) = .next (u.goto (.word a 32 w)) :=
    steps_sendBits (s := s.setCRIT true) (j := 16) (m := 32) hp a w (Nat.le_refl 16) rfl
  have hclose : step (u.goto (.word a 32 w)) = .next (((u.setDI false).setCRIT false).goto (afterWord s.n a)) := by
    rw [step_word (s := u.goto (.word a 32 w)) ((port_eq_of_offWire hu).trans hp) rfl, sendWordStep_last _ _ _ _ (by decide),
      State.goto_n, n_eq_of_offWire hu]
    rfl
  rw [show 34 = 32 + 1 + 1 from rfl, steps_succ_of_next hentry, steps_add 32 1 _ _ hloop, steps_one, hclose]
  rfl

/-! ### LATCH -/

/-- Two half-pulses are one pass of LATCH's loop. -/
theorem steps_latchPulse {s : State} (hp : s.port = none) {p p' : Fin 8} (heven : p.val % 2 = 0) (hp' : p'.val = p.val + 2) :
    steps 2 (s.goto (.latch p)) = .next ((latchPulse s).goto (.latch p')) := by
  have hlt : p.val + 1 < 7 := by omega
  have hup : step (s.goto (.latch p)) = .next ((s.setDI true).goto (.latch ⟨p.val + 1, by omega⟩)) := by
    rw [step_latch (s := s.goto (.latch p)) hp rfl, latchStep_pulse p _ (Nat.lt_of_succ_lt hlt)]
    simp [heven]
  have hdown : step ((s.setDI true).goto (.latch ⟨p.val + 1, by omega⟩))
      = .next (((s.setDI true).setDI false).goto (.latch p')) := by
    have hodd : (p.val + 1) % 2 = 1 := by omega
    rw [step_latch (s := (s.setDI true).goto _) hp rfl, latchStep_pulse _ _ hlt,
      show p' = ⟨p.val + 1 + 1, Nat.succ_lt_succ hlt⟩ from Fin.ext hp']
    simp [hodd]
  rw [show (2 : Nat) = 1 + 1 from rfl, steps_succ_of_next hup, steps_one, hdown]
  rfl

/-- The last two half-pulses are the last pass, which ends the REFRESH. -/
theorem steps_lastPulse {s : State} (hp : s.port = none) :
    steps 2 (s.goto (.latch 6)) = .next (((latchPulse s).setCRIT false).goto .idle) := by
  have hup : step (s.goto (.latch 6)) = .next ((s.setDI true).goto (.latch 7)) := by
    rw [step_latch (s := s.goto (.latch 6)) hp rfl, latchStep_pulse 6 _ (by decide)]
    rfl
  have hdown : step ((s.setDI true).goto (.latch 7)) = .next ((((s.setDI true).setDI false).setCRIT false).goto .idle) := by
    rw [step_latch (s := (s.setDI true).goto _) hp rfl, latchStep_last 7 _ (by decide)]
    rfl
  rw [show (2 : Nat) = 1 + 1 from rfl, steps_succ_of_next hup, steps_one, hdown]
  rfl

/-- LATCH from PRELATCH at the event level is LATCH at the operation level. -/
theorem steps_latch {s : State} (hp : s.port = none) : steps 9 (s.goto .prelatch) = .next ((latchOp s).goto .idle) := by
  let u := s.setCRIT true
  have hentry : step (s.goto .prelatch) = .next (u.goto (.latch 0)) := step_prelatch hp rfl
  have h1 : steps 2 (u.goto (.latch 0)) = .next ((latchPulse u).goto (.latch 2)) :=
    steps_latchPulse (s := u) (p := 0) (p' := 2) hp rfl rfl
  have h2 : steps 2 ((latchPulse u).goto (.latch 2)) = .next ((latchPulse (latchPulse u)).goto (.latch 4)) :=
    steps_latchPulse (s := latchPulse u) (p := 2) (p' := 4) hp rfl rfl
  have h3 : steps 2 ((latchPulse (latchPulse u)).goto (.latch 4))
      = .next ((latchPulse (latchPulse (latchPulse u))).goto (.latch 6)) :=
    steps_latchPulse (s := latchPulse (latchPulse u)) (p := 4) (p' := 6) hp rfl rfl
  rw [show 9 = 2 + (2 + (2 + 2)) + 1 from rfl, steps_succ_of_next hentry, steps_add 2 6 _ _ h1, steps_add 2 4 _ _ h2,
    steps_add 2 2 _ _ h3]
  exact steps_lastPulse (s := latchPulse (latchPulse (latchPulse u))) hp

/-! ### REFRESH -/

/-- The position before the word at address `a`: its GAP, or PRELATCH behind the last word. -/
def beforeWord (n a : Nat) : Seq := if a < 13 * n then .gap a else .prelatch

theorem afterWord_eq (n a : Nat) : afterWord n a = beforeWord n (a + 1) := rfl

/-- The words from address `a` to the last are sent one by one. -/
theorem steps_sendWords {s : State} (hp : s.port = none) {a k : Nat} (hk : a + k = 13 * s.n) :
    steps (34 * k) (s.goto (beforeWord s.n a)) = .next ((sendWordsOp ((List.range' a k).map s.memRead) s).goto .prelatch) := by
  induction k generalizing a s with
  | zero =>
    rw [beforeWord, if_neg (by omega)]
    rfl
  | succ k ih =>
    have ha : s.inChain a := show a < 13 * s.n by omega
    have hoff := offWire_sendWordOp (s.memRead a) s
    have hrest := ih (s := sendWordOp (s.memRead a) s) ((port_eq_of_offWire hoff).trans hp) (a := a + 1)
      (by rw [n_eq_of_offWire hoff]; omega)
    rw [n_eq_of_offWire hoff, memRead_eq_of_offWire hoff] at hrest
    rw [Nat.mul_succ, Nat.add_comm, beforeWord, if_pos ha, steps_add _ _ _ _ (steps_sendWord hp ha), afterWord_eq, hrest,
      List.range'_succ, List.map_cons, sendWordsOp_cons]

/-- The first step of a REFRESH takes the request. -/
theorem step_refresh {s : State} {r : Request} (hp : s.port = some r) (hd : decodeRequest s.params.format r = .ok .refresh)
    (hs : s.seq = .idle) : step s = .next (State.goto { s with port := none } (.gap 0)) := by
  rw [step_request hp hd]
  exact takeInIdle_idle (s := { s with port := none }) hs _

/-- Every word of the chain is sent, from the first gap to PRELATCH. -/
theorem steps_chainWords {s : State} (hp : s.port = none) (hn : 1 ≤ s.n) :
    steps (34 * (13 * s.n)) (s.goto (.gap 0)) = .next ((sendWordsOp (chainWords s) s).goto .prelatch) := by
  have h := steps_sendWords hp (a := 0) (k := 13 * s.n) (Nat.zero_add _)
  rwa [beforeWord, if_pos (by omega), ← List.range_eq_range', ← chainWords_eq] at h

/-- A whole REFRESH at the event level is REFRESH at the operation level (41_refresh.md R104). -/
theorem steps_refresh {s : State} {r : Request} (hp : s.port = some r) (hd : decodeRequest s.params.format r = .ok .refresh)
    (hn : 1 ≤ s.n) (hs : s.seq = .idle) : steps (refreshSteps s.n) s = .next (refreshOp { s with port := none }) := by
  have hcount : refreshSteps s.n = 34 * (13 * s.n) + 9 + 1 := by
    rw [refreshSteps]
    omega
  have hport := port_eq_of_offWire (offWire_sendWordsOp (chainWords { s with port := none }) { s with port := none })
  have hseq : (refreshOp { s with port := none }).seq = .idle := (seq_refreshOp _).trans hs
  rw [hcount, steps_succ_of_next (step_refresh hp hd hs),
    steps_add _ _ _ _ (steps_chainWords (s := { s with port := none }) rfl hn), steps_latch hport, ← hseq]
  rfl

/-- Settles O47: `steps_refresh`. -/
theorem eventLevelAgreesWithOperationLevel : Obligations.EventLevelAgreesWithOperationLevel :=
  fun _ _ hp hd hn hs _ _ _ => steps_refresh hp hd hn hs

end Sys2Proof.Machine
end

/-! ## Proofs: what SEND_WORD, LATCH and REFRESH append (40_transmit_primitives.md R80, R83, R87; 41_refresh.md R100) -/

section
namespace Sys2Proof.Machine

/-- The clock edges of the bits of the given indices alternate, from level `c` (30_encoding.md R63). -/
def clockAlternates : Level → List Nat → Bool
  | _, [] => true
  | c, i :: is => (c != decide (i % 2 = 1)) && clockAlternates (decide (i % 2 = 1)) is

theorem clockEdge_of_ne {c : Level} {i : Nat} (h : (c != decide (i % 2 = 1)) = true) :
    clockEdge c (decide (i % 2 = 1)) = [clockEventAt i] := by
  rw [clockEventAt]
  by_cases hi : i % 2 = 1 <;> cases c <;> simp_all [clockEdge]

/-- SEND_WORD's loop and its closing write append the edges of the bits. -/
theorem setDI_foldl_sendBit (w : Word) (s : State) {is : List Nat} (h : clockAlternates s.dcki is = true) :
    (is.foldl (sendBit w) s).setDI false
      = { s with di := false, dcki := lastClock s.dcki is, trace := s.trace ++ edgesFrom w s.di is } := by
  induction is generalizing s with
  | nil => rfl
  | cons i is ih =>
    rw [clockAlternates, Bool.and_eq_true] at h
    obtain ⟨hne, hrest⟩ := h
    have htrace : (sendBit w s i).trace = s.trace ++ dataEdge s.di (w.getLsbD i) ++ [clockEventAt i] := by
      rw [← clockEdge_of_ne hne]
      rfl
    rw [List.foldl_cons, ih (sendBit w s i) hrest, htrace]
    simp [edgesFrom, sendBit, State.setDI, State.setDCKI, lastClock]

/-- SEND_WORD with both lines and CRIT low appends the edges of its word and changes nothing else. -/
theorem sendWordOp_eq (w : Word) {s : State} (hdi : s.di = false) (hdcki : s.dcki = false) (hcrit : s.crit = false) :
    sendWordOp w s = { s with trace := s.trace ++ edges w } := by
  have halt : clockAlternates (s.setCRIT true).dcki bitIndices = true := by
    rw [State.setCRIT_dcki, hdcki]
    decide
  have hlast : lastClock false bitIndices = false := by decide
  rw [sendWordOp, State.wait_eq, setDI_foldl_sendBit w _ halt, State.setCRIT_dcki, State.setCRIT_di, hdi, hdcki, hlast]
  cases s
  simp_all [edges, State.setCRIT]

/-- The SEND_WORDs of words with both lines and CRIT low append the edges of the words and change nothing else. -/
theorem sendWordsOp_eq (ws : List Word) {s : State} (hdi : s.di = false) (hdcki : s.dcki = false) (hcrit : s.crit = false) :
    sendWordsOp ws s = { s with trace := s.trace ++ ws.flatMap edges } := by
  induction ws generalizing s with
  | nil => simp
  | cons w ws ih =>
    rw [sendWordsOp_cons, sendWordOp_eq w hdi hdcki hcrit, ih (s := { s with trace := s.trace ++ edges w }) hdi hdcki hcrit]
    simp

/-- LATCH with the data line and CRIT low appends the latch symbol and changes nothing else. -/
theorem latchOp_eq {s : State} (hdi : s.di = false) (hcrit : s.crit = false) :
    latchOp s = { s with trace := s.trace ++ latchSymbol } := by
  cases s
  simp_all [latchOp, latchPulse, latchSymbol, State.setDI, State.setCRIT, dataEdge]

/-- REFRESH with both lines and CRIT low appends the edges of the chain frame and changes nothing else. -/
theorem refreshOp_eq {s : State} (hdi : s.di = false) (hdcki : s.dcki = false) (hcrit : s.crit = false) :
    refreshOp s = { s with trace := s.trace ++ frameEdges (chainWords s) } := by
  rw [refreshOp, State.wait_eq, sendWordsOp_eq _ hdi hdcki hcrit,
    latchOp_eq (s := { s with trace := s.trace ++ (chainWords s).flatMap edges }) hdi hcrit, frameEdges, List.append_assoc]

/-- Going to the position a state stands at leaves the state as it is. -/
theorem State.eq_goto {s : State} {q : Seq} (h : s.seq = q) : s = s.goto q := by
  rw [← h, goto_seq_self]

/-- Settles O41: SEND_WORD at the event level is SEND_WORD at the operation level, which appends the edges of its word. -/
theorem sendWordAppendsTheEdgesOfItsWord : Obligations.SendWordAppendsTheEdgesOfItsWord := by
  refine ⟨fun s a hp hs ha hdi hdcki hcrit => ?_, filter_isClock_edges, fun _ _ _ => rfl, by decide⟩
  rw [State.eq_goto hs, steps_sendWord hp ha, sendWordOp_eq _ hdi hdcki hcrit]
  rfl

/-- Settles O42: LATCH at the event level is LATCH at the operation level, which appends the latch symbol. -/
theorem latchAppendsFourPulses : Obligations.LatchAppendsFourPulses := by
  refine ⟨fun s hp hs hdi _ hcrit => ?_, fun _ => rfl⟩
  rw [State.eq_goto hs, steps_latch hp, latchOp_eq hdi hcrit]
  rfl

/-- A whole REFRESH with both lines and CRIT low appends the edges of the chain frame. -/
theorem steps_refresh_eq {s : State} {r : Request} (hp : s.port = some r)
    (hd : decodeRequest s.params.format r = .ok .refresh) (hn : 1 ≤ s.n) (hs : s.seq = .idle) (hdi : s.di = false)
    (hdcki : s.dcki = false) (hcrit : s.crit = false) :
    steps (refreshSteps s.n) s = .next { s with port := none, trace := s.trace ++ frameEdges (chainWords s) } := by
  rw [steps_refresh hp hd hn hs, refreshOp_eq (s := { s with port := none }) hdi hdcki hcrit]
  rfl

/-! ### A freshly constructed block (95_test_vectors.md S7) -/

theorem chainWords_initial (p : Params) (n : Nat) : chainWords (State.initial p n) = List.replicate (13 * n) 0 := by
  rw [chainWords_eq, List.eq_replicate_iff]
  refine ⟨by simp, fun w hw => ?_⟩
  obtain ⟨a, -, rfl⟩ := List.mem_map.1 hw
  rfl

/-- Zero words are clock pulses. -/
theorem flatMap_edges_replicate_zero (k : Nat) :
    (List.replicate k (0 : Word)).flatMap edges = (List.replicate (8 * k) [Event.cUp, Event.cDown]).flatten := by
  induction k with
  | zero => rfl
  | succ k ih =>
    have hzero : edges 0 = (List.replicate 8 [Event.cUp, Event.cDown]).flatten := by decide
    rw [List.replicate_succ, List.flatMap_cons, ih, hzero, Nat.mul_succ, Nat.add_comm, List.replicate_add, List.flatten_append]

theorem frameEdges_initial (p : Params) (n : Nat) :
    frameEdges (chainWords (State.initial p n)) = (List.replicate (104 * n) [Event.cUp, Event.cDown]).flatten ++ latchSymbol := by
  rw [frameEdges, chainWords_initial, flatMap_edges_replicate_zero, ← Nat.mul_assoc]

/-- Settles O46: `steps_refresh_eq`; the worked example is the frame of a fresh chain of one. -/
theorem refreshAppendsTheChainFrame : Obligations.RefreshAppendsTheChainFrame :=
  ⟨fun _ => rfl, fun _ _ => steps_refresh_eq, frameEdges_initial defaultParams 1⟩

/-- Settles O48: what REFRESH appends is the frame, and a receiver reads its words. -/
theorem sampledRefreshIsTheChainFrame : Obligations.SampledRefreshIsTheChainFrame := by
  intro s r hp hd hn hs hdi hdcki hcrit
  have hsampled := sampled_frameEdges (chainWords s)
  refine ⟨_, frameEdges (chainWords s), steps_refresh_eq hp hd hn hs hdi hdcki hcrit, rfl, hsampled, ?_⟩
  rw [hsampled, length_flatMap_wordBits, length_chainWords, ← Nat.mul_assoc]

/-- Settles O52: a REFRESH of zero words. -/
theorem freshRefreshSendsZeros : Obligations.FreshRefreshSendsZeros := by
  intro p n hn
  refine ⟨_, steps_refresh_eq (s := { State.initial p n with port := some ⟨3, 5⟩ }) rfl rfl hn rfl rfl rfl rfl, ?_, rfl⟩
  exact (List.nil_append _).trans (frameEdges_initial p n)

end Sys2Proof.Machine
end

/-! ## Proofs: the pin writes and critical sections of a REFRESH (41_refresh.md R101; 60_exceptions.md R147) -/

section
namespace Sys2Proof.Machine

/-! ### The pin write of a transition -/

/-- A transition of the table drives the lines as its row says. -/
theorem MicroStep.levels_eq {s t : State} (h : MicroStep s t) : (t.di, t.dcki) = levelsAfter s (pinWriteAt s.seq) := by
  cases h with
  | enterWord a hseq ha => simp [hseq, pinWriteAt, levelsAfter]
  | data a m w hseq hm heven =>
    have hne : m.val ≠ 32 := by omega
    simp [hseq, pinWriteAt, levelsAfter, hne, heven]
  | clock a m w hseq hm hodd =>
    have hne : m.val ≠ 32 := by omega
    simp [hseq, pinWriteAt, levelsAfter, hne, hodd]
  | closeWord a m w hseq hm => simp [hseq, pinWriteAt, levelsAfter, hm]
  | enterLatch hseq => simp [hseq, pinWriteAt, levelsAfter]
  | pulse p hseq hp => simp [hseq, pinWriteAt, levelsAfter]
  | closeLatch p hseq hp => simp [hseq, pinWriteAt, levelsAfter, hp]

/-- A step drives the lines as the table says, and not at all in IDLE. -/
theorem step_levels {s t : State} (h : step s = .next t) : (t.di, t.dcki) = levelsAfter s (pinWriteAt s.seq) := by
  by_cases hs : s.seq = .idle
  · obtain ⟨hdi, hdcki, -⟩ := step_idle_keeps_wire hs h
    rw [hs, hdi, hdcki, pinWriteAt, levelsAfter]
  · exact (microStep_of_step hs h).2.levels_eq

/-! ### The profile of a run: pin writes and CRIT, step by step -/

/-- Whether each of the first `k` steps writes a pin, and CRIT before it. -/
def profile (k : Nat) (s : State) : List (Bool × Bool) := (standsAt k s).map fun u => (writesPin u, u.crit)

theorem profile_succ {s t : State} (h : step s = .next t) (k : Nat) :
    profile (k + 1) s = (writesPin s, s.crit) :: profile k t := by
  simp [profile, standsAt, h]

theorem profile_add (j k : Nat) {s t : State} (h : steps j s = .next t) : profile (j + k) s = profile j s ++ profile k t := by
  induction j generalizing s with
  | zero =>
    cases h
    simp [profile, standsAt]
  | succ j ih =>
    rw [steps] at h
    split at h
    · rename_i u hu
      rw [Nat.add_right_comm, profile_succ hu, profile_succ hu, ih h, List.cons_append]
    · cases h
    · cases h

theorem length_profile (k : Nat) (s : State) : (profile k s).length = (standsAt k s).length :=
  List.length_map ..

theorem countP_fst_profile (k : Nat) (s : State) : (profile k s).countP Prod.fst = (standsAt k s).countP writesPin := by
  rw [profile, List.countP_map]
  rfl

theorem map_snd_profile (k : Nat) (s : State) : (profile k s).map Prod.snd = (standsAt k s).map (·.crit) := by
  rw [profile, List.map_map]
  rfl

theorem writesPin_of_criticalAt {s : State} (h : criticalAt s.seq = true) : writesPin s = true := by
  unfold writesPin
  cases hseq : s.seq with
  | word a m w =>
    rw [pinWriteAt]
    split
    · rfl
    · split <;> rfl
  | latch p => rfl
  | idle => simp [hseq, criticalAt] at h
  | gap a => simp [hseq, criticalAt] at h
  | prelatch => simp [hseq, criticalAt] at h

theorem criticalAt_of_criticalStepsLeft {q : Seq} (h : criticalStepsLeft q ≠ 0) : criticalAt q = true := by
  cases q with
  | idle => exact absurd rfl h
  | gap a => exact absurd rfl h
  | word a m w => rfl
  | prelatch => exact absurd rfl h
  | latch p => rfl

/-- To the end of its critical section every step writes a pin, with CRIT at 1. -/
theorem profile_critical {s : State} {k : Nat} (hk : criticalStepsLeft s.seq = k) (hr : seqInRange s) (hp : s.port = none)
    (hcrit : s.crit = criticalAt s.seq) : profile k s = List.replicate k (true, true) := by
  induction k generalizing s with
  | zero => rfl
  | succ k ih =>
    have hpos : criticalStepsLeft s.seq ≠ 0 := by omega
    have hs : s.seq ≠ .idle := fun hidle => hpos (congrArg criticalStepsLeft hidle)
    have hcritical := criticalAt_of_criticalStepsLeft hpos
    obtain ⟨t, ht, hm, hin⟩ := exists_microStep ⟨hr, hp, rfl, rfl⟩ hs
    have hleft := hm.criticalStepsLeft_eq hpos
    rw [profile_succ ht, ih (by omega) hin.position hin.notPresented (hm.keeps_critical hcrit), writesPin_of_criticalAt hcritical,
      hcrit, hcritical, List.replicate_succ]

/-- The profile of SEND_WORD: its entry, then 33 writes with CRIT at 1. -/
def wordProfile : List (Bool × Bool) := (false, false) :: List.replicate 33 (true, true)

/-- The profile of LATCH: its entry, then 8 writes with CRIT at 1. -/
def latchProfile : List (Bool × Bool) := (false, false) :: List.replicate 8 (true, true)

theorem profile_sendWord {s : State} {a : Nat} (hp : s.port = none) (ha : s.inChain a) (hcrit : s.crit = false) :
    profile 34 (s.goto (.gap a)) = wordProfile := by
  have hentry : step (s.goto (.gap a)) = .next ((s.setCRIT true).goto (.word a 0 (s.memRead a))) := step_gap hp rfl ha
  have hrest : profile 33 ((s.setCRIT true).goto (.word a 0 (s.memRead a))) = List.replicate 33 (true, true) :=
    profile_critical rfl (show s.inChain a ∧ s.memRead a = s.memRead a from ⟨ha, rfl⟩) hp rfl
  rw [show 34 = 33 + 1 from rfl, profile_succ hentry, hrest, State.goto_crit, hcrit]
  rfl

theorem profile_latch {s : State} (hp : s.port = none) (hcrit : s.crit = false) :
    profile 9 (s.goto .prelatch) = latchProfile := by
  have hentry : step (s.goto .prelatch) = .next ((s.setCRIT true).goto (.latch 0)) := step_prelatch hp rfl
  have hrest : profile 8 ((s.setCRIT true).goto (.latch 0)) = List.replicate 8 (true, true) :=
    profile_critical rfl trivial hp rfl
  rw [show 9 = 8 + 1 from rfl, profile_succ hentry, hrest, State.goto_crit, hcrit]
  rfl

@[simp] theorem crit_sendWordOp (w : Word) (s : State) : (sendWordOp w s).crit = false := rfl

theorem crit_sendWordsOp (ws : List Word) {s : State} (hcrit : s.crit = false) : (sendWordsOp ws s).crit = false := by
  induction ws generalizing s with
  | nil => exact hcrit
  | cons w ws ih =>
    rw [sendWordsOp_cons]
    exact ih (crit_sendWordOp w s)

/-- The profile of the words from address `a` to the last. -/
theorem profile_sendWords {s : State} (hp : s.port = none) (hcrit : s.crit = false) {a k : Nat} (hk : a + k = 13 * s.n) :
    profile (34 * k) (s.goto (beforeWord s.n a)) = (List.replicate k wordProfile).flatten := by
  induction k generalizing a s with
  | zero => rfl
  | succ k ih =>
    have ha : s.inChain a := show a < 13 * s.n by omega
    have hoff := offWire_sendWordOp (s.memRead a) s
    have hrest := ih (s := sendWordOp (s.memRead a) s) ((port_eq_of_offWire hoff).trans hp) (crit_sendWordOp ..) (a := a + 1)
      (by rw [n_eq_of_offWire hoff]; omega)
    rw [n_eq_of_offWire hoff] at hrest
    rw [Nat.mul_succ, Nat.add_comm, beforeWord, if_pos ha, profile_add _ _ (steps_sendWord hp ha), profile_sendWord hp ha hcrit,
      afterWord_eq, hrest, List.replicate_succ, List.flatten_cons]

/-- The profile of a whole REFRESH: the request taken, every word, the latch symbol. -/
theorem profile_refresh {s : State} {r : Request} (hp : s.port = some r) (hd : decodeRequest s.params.format r = .ok .refresh)
    (hn : 1 ≤ s.n) (hs : s.seq = .idle) (hcrit : s.crit = false) :
    profile (refreshSteps s.n) s = (false, false) :: ((List.replicate (13 * s.n) wordProfile).flatten ++ latchProfile) := by
  have hcount : refreshSteps s.n = 34 * (13 * s.n) + 9 + 1 := by
    rw [refreshSteps]
    omega
  have hwords := profile_sendWords (s := { s with port := none }) rfl hcrit (a := 0) (k := 13 * s.n) (Nat.zero_add _)
  rw [beforeWord, if_pos (show 0 < 13 * s.n by omega)] at hwords
  have hport := port_eq_of_offWire (offWire_sendWordsOp (chainWords { s with port := none }) { s with port := none })
  have hfirst : writesPin s = false := by
    rw [writesPin, hs]
    rfl
  rw [hcount, profile_succ (step_refresh hp hd hs),
    profile_add _ _ (steps_chainWords (s := { s with port := none }) rfl hn), hwords, profile_latch hport (crit_sendWordsOp _ hcrit), hfirst, hcrit]

/-! ### Counting along a profile -/

theorem rises_replicate_true (k : Nat) (l : List Level) : rises (true :: (List.replicate k true ++ l)) = rises (true :: l) := by
  induction k with
  | zero => rfl
  | succ k ih =>
    rw [List.replicate_succ, List.cons_append, rises, ih]
    simp

/-- A critical section is one rise. -/
theorem rises_section (c : Level) (k : Nat) (l : List Level) :
    rises (c :: (false :: List.replicate (k + 1) true ++ l)) = 1 + rises (true :: l) := by
  rw [List.replicate_succ, List.cons_append, List.cons_append, rises, rises, rises_replicate_true]
  simp

/-- The critical sections of `k` words and of a latch symbol are as many rises. -/
theorem rises_words_latch (c : Level) (k : Nat) :
    rises (c :: ((List.replicate k wordProfile).flatten ++ latchProfile).map Prod.snd) = k + 1 := by
  induction k generalizing c with
  | zero => cases c <;> decide
  | succ k ih =>
    have hword : ((List.replicate (k + 1) wordProfile).flatten ++ latchProfile).map Prod.snd
        = false :: List.replicate (32 + 1) true ++ ((List.replicate k wordProfile).flatten ++ latchProfile).map Prod.snd := by
      simp [List.replicate_succ, wordProfile]
    rw [hword, rises_section, ih, Nat.add_comm]

/-- Settles O51: the counts are those of the profile of a whole REFRESH. -/
theorem pinWritesAndCriticalSectionsOfARefresh : Obligations.PinWritesAndCriticalSectionsOfARefresh := by
  refine ⟨fun _ _ => step_levels, fun s r hp hd hn hs hcrit => ?_⟩
  have hprofile := profile_refresh hp hd hn hs hcrit
  rw [← length_profile, ← countP_fst_profile, ← map_snd_profile, hprofile]
  refine ⟨?_, ?_, rises_words_latch false (13 * s.n)⟩
  · simp [wordProfile, latchProfile, refreshSteps]
    omega
  · have hword : wordProfile.countP Prod.fst = 33 := by decide
    have hlatch : latchProfile.countP Prod.fst = 8 := by decide
    simp [List.countP_flatten, hword, hlatch]
    omega

end Sys2Proof.Machine
end

/-! ## Proofs: packing, unpacking and the bias (10_state.md R15, R16; 42_command_config.md R113, R115; 43_data_assign.md R125) -/

section
namespace Sys2Proof.Machine

/-! ### What the constraints on a layout say of its fields (10_state.md R16) -/

theorem mem_cmdFields (f : CmdField) : f ∈ cmdFields := by
  cases f <;> decide

theorem fieldOk_of_layoutOk {l : Layout} (h : layoutOk l = true) (f : CmdField) :
    (rangeOf l f).lo + (rangeOf l f).width ≤ 16 ∧ (codesOfField l f).length = settings f ∧ (codesOfField l f).Nodup ∧
      ∀ c ∈ codesOfField l f, c < 2 ^ (rangeOf l f).width := by
  rw [layoutOk, Bool.and_eq_true, List.all_eq_true] at h
  simpa [fieldOk, and_assoc] using h.1 f (mem_cmdFields f)

theorem disjoint_of_layoutOk {l : Layout} (h : layoutOk l = true) {f g : CmdField} (hne : f ≠ g) :
    (rangeOf l f).lo + (rangeOf l f).width ≤ (rangeOf l g).lo ∨ (rangeOf l g).lo + (rangeOf l g).width ≤ (rangeOf l f).lo := by
  rw [layoutOk, Bool.and_eq_true, List.all_eq_true, List.all_eq_true] at h
  have hfg := List.all_eq_true.1 (h.2 f (mem_cmdFields f)) g (mem_cmdFields g)
  simpa [rangesDisjoint, hne] using hfg

theorem codeOf_mem {l : Layout} {e : CmdCodes} (h : codesInRange l e = true) (f : CmdField) :
    (codeOf e f).toNat ∈ codesOfField l f :=
  of_decide_eq_true (List.all_eq_true.1 h f (mem_cmdFields f))

/-- A code in range fits its field. -/
theorem codeOf_lt {l : Layout} {e : CmdCodes} (hl : layoutOk l = true) (he : codesInRange l e = true) (f : CmdField) :
    (codeOf e f).toNat < 2 ^ (rangeOf l f).width := by
  obtain ⟨-, -, -, hlt⟩ := fieldOk_of_layoutOk hl f
  exact hlt _ (codeOf_mem he f)

/-! ### The bits of a packed word -/

theorem getLsbD_packTerm (l : Layout) (e : CmdCodes) (f : CmdField) (j : Nat) :
    (packTerm l e f).getLsbD j
      = (decide (j < 16) && decide ((rangeOf l f).lo ≤ j) && (codeOf e f).getLsbD (j - (rangeOf l f).lo)) := by
  rw [packTerm, BitVec.getLsbD_shiftLeft, BitVec.getLsbD_setWidth]
  by_cases hj : j < 16
  · have hsub : j - (rangeOf l f).lo < 16 := by omega
    by_cases hlo : (rangeOf l f).lo ≤ j
    · simp [hj, hlo, hsub]
    · simp [hj, hlo]
  · simp [hj]

/-- A bit of the packed word is set exactly if a field sets it. -/
theorem getLsbD_pack (l : Layout) (e : CmdCodes) (j : Nat) :
    (pack l e).getLsbD j = true ↔ ∃ f, (packTerm l e f).getLsbD j = true := by
  have hany : (pack l e).getLsbD j = cmdFields.any fun f => (packTerm l e f).getLsbD j := by
    simp [pack, cmdFields, Bool.or_assoc]
  rw [hany, List.any_eq_true]
  exact ⟨fun ⟨f, _, h⟩ => ⟨f, h⟩, fun ⟨f, h⟩ => ⟨f, mem_cmdFields f, h⟩⟩

/-- A code that fits its field sets no bit outside it. -/
theorem range_of_packTerm {l : Layout} {e : CmdCodes} {f : CmdField} {j : Nat}
    (hlt : (codeOf e f).toNat < 2 ^ (rangeOf l f).width) (h : (packTerm l e f).getLsbD j = true) :
    (rangeOf l f).lo ≤ j ∧ j < (rangeOf l f).lo + (rangeOf l f).width := by
  simp only [getLsbD_packTerm, Bool.and_eq_true, decide_eq_true_eq] at h
  obtain ⟨⟨-, hlo⟩, hbit⟩ := h
  refine ⟨hlo, ?_⟩
  by_contra hge
  have hle : 2 ^ (rangeOf l f).width ≤ 2 ^ (j - (rangeOf l f).lo) := Nat.pow_le_pow_right (by decide) (by omega)
  rw [BitVec.getLsbD, Nat.testBit_lt_two_pow (by omega)] at hbit
  cases hbit

/-- Inside its range a field of the packed word is its code, since no other field reaches there. -/
theorem getLsbD_pack_field {l : Layout} {e : CmdCodes} (hl : layoutOk l = true) (he : codesInRange l e = true) (f : CmdField)
    {i : Nat} (hi : i < (rangeOf l f).width) :
    (pack l e).getLsbD ((rangeOf l f).lo + i) = (codeOf e f).getLsbD i := by
  obtain ⟨hfit, -⟩ := fieldOk_of_layoutOk hl f
  have hown : (packTerm l e f).getLsbD ((rangeOf l f).lo + i) = (codeOf e f).getLsbD i := by
    rw [getLsbD_packTerm, Nat.add_sub_cancel_left]
    simp
    omega
  rw [Bool.eq_iff_iff, getLsbD_pack, ← hown]
  refine ⟨fun ⟨g, hg⟩ => ?_, fun h => ⟨f, h⟩⟩
  by_cases hgf : g = f
  · rwa [hgf] at hg
  · have hin := range_of_packTerm (codeOf_lt hl he g) hg
    have hdisj := disjoint_of_layoutOk hl hgf
    omega

/-! ### Unpacking -/

theorem toNat_unpackField {l : Layout} {f : CmdField} (hw : (rangeOf l f).width ≤ 16) (c : Word) :
    (unpackField l f c).toNat = c.toNat >>> (rangeOf l f).lo % 2 ^ (rangeOf l f).width := by
  have hle : 2 ^ (rangeOf l f).width ≤ 2 ^ 16 := Nat.pow_le_pow_right (by decide) hw
  have hpos : 0 < 2 ^ (rangeOf l f).width := Nat.two_pow_pos _
  rw [unpackField, BitVec.toNat_and, BitVec.toNat_ushiftRight, BitVec.toNat_ofNat, Nat.mod_eq_of_lt (by omega),
    Nat.and_two_pow_sub_one_eq_mod]

/-- Unpacking a field of a packed word recovers its code (42_command_config.md R115). -/
theorem toNat_unpackField_pack {l : Layout} {e : CmdCodes} (hl : layoutOk l = true) (he : codesInRange l e = true)
    (f : CmdField) : (unpackField l f (pack l e)).toNat = (codeOf e f).toNat := by
  obtain ⟨hfit, -⟩ := fieldOk_of_layoutOk hl f
  rw [toNat_unpackField (by omega)]
  refine Nat.eq_of_testBit_eq fun i => ?_
  rw [Nat.testBit_mod_two_pow, Nat.testBit_shiftRight]
  by_cases hi : i < (rangeOf l f).width
  · rw [decide_eq_true hi, Bool.true_and]
    exact getLsbD_pack_field hl he f hi
  · have hle : 2 ^ (rangeOf l f).width ≤ 2 ^ i := Nat.pow_le_pow_right (by decide) (by omega)
    have hlt := codeOf_lt hl he f
    rw [decide_eq_false hi, Bool.false_and, Nat.testBit_lt_two_pow (by omega)]

/-- Settles O19: `toNat_unpackField_pack`. -/
theorem unpackRecoversEveryField : Obligations.UnpackRecoversEveryField :=
  fun _ _ f hl he => toNat_unpackField_pack hl he f

/-! ### CMD_SET in range -/

theorem exec_cmdSet_inRange {s : State} {e : CmdCodes} (he : codesInRange s.params.layout e = true) :
    exec (.cmdSet e) s = exec (.cmdRawSet (pack s.params.layout e)) s := by
  simp [exec, execCmdSet, execCmdRawSet, he]

/-- Settles O21: `exec_cmdSet_inRange`. -/
theorem cmdSetActsAsCmdRawSetOfThePackedWord : Obligations.CmdSetActsAsCmdRawSetOfThePackedWord :=
  fun _ _ => exec_cmdSet_inRange

/-- Settles O17: with every code in range CMD_SET is a broadcast of the packed word without a draw. -/
theorem cmdSetInRangeBroadcastsThePackedWord : Obligations.CmdSetInRangeBroadcastsThePackedWord :=
  ⟨fun _ _ hidle hs he => exec_broadcast_spec (k := 0) hs ((exec_cmdSet_inRange he).trans (exec_cmdRawSet_idle hidle _)),
    by decide⟩

/-! ### The default layout (10_state.md R15) -/

theorem layoutOk_cmdLayout : layoutOk cmdLayout = true := by decide

/-- In the default layout the codes of a field are all the numbers its range has room for. -/
theorem codesOfField_cmdLayout (f : CmdField) : codesOfField cmdLayout f = List.range (2 ^ (rangeOf cmdLayout f).width) := by
  cases f <;> decide

/-- The fields of the default layout lie in bits 10:0 and are at most eight bits wide. -/
theorem rangeOf_cmdLayout_le (f : CmdField) :
    (rangeOf cmdLayout f).lo + (rangeOf cmdLayout f).width ≤ 11 ∧ (rangeOf cmdLayout f).width ≤ 8 := by
  cases f <;> decide

/-- Each of the bits 10:0 lies in a field of the default layout. -/
theorem exists_field_cmdLayout :
    ∀ j < 11, ∃ f ∈ cmdFields, (rangeOf cmdLayout f).lo ≤ j ∧ j < (rangeOf cmdLayout f).lo + (rangeOf cmdLayout f).width := by
  decide

theorem toNat_pack_cmdLayout_lt {e : CmdCodes} (he : codesInRange cmdLayout e = true) : (pack cmdLayout e).toNat < 2048 := by
  refine Nat.lt_pow_two_of_testBit (n := 11) _ fun j hj => ?_
  by_contra hbit
  obtain ⟨f, hf⟩ := (getLsbD_pack cmdLayout e j).1 (by simpa [BitVec.getLsbD] using hbit)
  have hin := range_of_packTerm (codeOf_lt layoutOk_cmdLayout he f) hf
  have hle := rangeOf_cmdLayout_le f
  omega

/-- Packing is injective: the codes are recovered from the packed word. -/
theorem pack_injective {l : Layout} {e e' : CmdCodes} (hl : layoutOk l = true) (he : codesInRange l e = true)
    (he' : codesInRange l e' = true) (h : pack l e = pack l e') : e = e' := by
  refine CmdCodes.eq_of_map_codeOf (List.map_congr_left fun f _ => BitVec.eq_of_toNat_eq ?_)
  rw [← toNat_unpackField_pack hl he f, ← toNat_unpackField_pack hl he' f, h]

/-- The codes the fields of a word hold, cut to eight bits. -/
def unpackCodes (l : Layout) (c : Word) : CmdCodes where
  slew    := (unpackField l .slew c).setWidth 8
  depth   := (unpackField l .depth c).setWidth 8
  div     := (unpackField l .div c).setWidth 8
  wave    := (unpackField l .wave c).setWidth 8
  clksrc  := (unpackField l .clksrc c).setWidth 8
  pol     := (unpackField l .pol c).setWidth 8
  cntrst  := (unpackField l .cntrst c).setWidth 8
  oneshot := (unpackField l .oneshot c).setWidth 8

theorem codeOf_unpackCodes (l : Layout) (c : Word) (f : CmdField) :
    codeOf (unpackCodes l c) f = (unpackField l f c).setWidth 8 := by
  cases f <;> rfl

theorem toNat_codeOf_unpackCodes (c : Word) (f : CmdField) :
    (codeOf (unpackCodes cmdLayout c) f).toNat = c.toNat >>> (rangeOf cmdLayout f).lo % 2 ^ (rangeOf cmdLayout f).width := by
  obtain ⟨-, hw⟩ := rangeOf_cmdLayout_le f
  have hpow : 2 ^ (rangeOf cmdLayout f).width ≤ 2 ^ 8 := Nat.pow_le_pow_right (by decide) hw
  have hlt := Nat.mod_lt (c.toNat >>> (rangeOf cmdLayout f).lo) (Nat.two_pow_pos (rangeOf cmdLayout f).width)
  rw [codeOf_unpackCodes, BitVec.toNat_setWidth, toNat_unpackField (by omega), Nat.mod_eq_of_lt (by omega)]

theorem codesInRange_unpackCodes (c : Word) : codesInRange cmdLayout (unpackCodes cmdLayout c) = true := by
  refine List.all_eq_true.2 fun f _ => decide_eq_true ?_
  rw [codesOfField_cmdLayout, List.mem_range, toNat_codeOf_unpackCodes]
  exact Nat.mod_lt _ (Nat.two_pow_pos _)

/-- A word with bits 15:11 zero is what its fields are packed to. -/
theorem pack_unpackCodes {c : Word} (hc : c.toNat < 2048) : pack cmdLayout (unpackCodes cmdLayout c) = c := by
  have hbit (f : CmdField) (j : Nat) (hlo : (rangeOf cmdLayout f).lo ≤ j)
      (hhi : j < (rangeOf cmdLayout f).lo + (rangeOf cmdLayout f).width) :
      (pack cmdLayout (unpackCodes cmdLayout c)).getLsbD j = c.getLsbD j := by
    obtain ⟨i, rfl⟩ := Nat.exists_eq_add_of_le hlo
    rw [getLsbD_pack_field layoutOk_cmdLayout (codesInRange_unpackCodes c) f (by omega), BitVec.getLsbD,
      toNat_codeOf_unpackCodes, Nat.testBit_mod_two_pow, Nat.testBit_shiftRight, decide_eq_true (by omega), Bool.true_and]
    rfl
  refine BitVec.eq_of_getLsbD_eq fun j _ => ?_
  by_cases hj : j < 11
  · obtain ⟨f, -, hlo, hhi⟩ := exists_field_cmdLayout j hj
    exact hbit f j hlo hhi
  · have hpow : 2 ^ 11 ≤ 2 ^ j := Nat.pow_le_pow_right (by decide) (by omega)
    have hpack := toNat_pack_cmdLayout_lt (codesInRange_unpackCodes c)
    rw [BitVec.getLsbD, BitVec.getLsbD, Nat.testBit_lt_two_pow (by omega), Nat.testBit_lt_two_pow (by omega)]

/-- Settles O20: packing stays in the low words, is injective since unpacking recovers the codes, and reaches every low word from
what its fields hold. -/
theorem defaultLayoutPacksOntoTheLowWords : Obligations.DefaultLayoutPacksOntoTheLowWords :=
  ⟨layoutOk_cmdLayout, fun _ => toNat_pack_cmdLayout_lt, fun _ _ => pack_injective layoutOk_cmdLayout,
    fun w hw => ⟨unpackCodes cmdLayout w, codesInRange_unpackCodes w, pack_unpackCodes hw⟩⟩

/-! ### The bias (43_data_assign.md R125) -/

/-- The biases of the four depths, in the order of the settings. -/
def biases : List Nat := [255, 4095, 16383, 65535]

theorem biasOf_eq (l : Layout) (c : Word) : biasOf l c = biases.getD (settingOf l .depth c) 255 := by
  unfold biasOf
  match settingOf l .depth c with
  | 0 => rfl
  | 1 => rfl
  | 2 => rfl
  | 3 => rfl
  | n + 4 => rfl

/-- A field holds the setting whose code it holds. -/
theorem settingOf_eq {l : Layout} {f : CmdField} {c : Word} {j : Nat} (hnodup : (codesOfField l f).Nodup)
    (h : (codesOfField l f)[j]? = some (unpackField l f c).toNat) : settingOf l f c = j := by
  obtain ⟨hj, hcode⟩ := List.getElem?_eq_some_iff.1 h
  rw [settingOf, ← hcode]
  exact hnodup.idxOf_getElem j hj

theorem biasOf_of_setting {l : Layout} {c : Word} {j b : Nat} (hj : settingOf l .depth c = j) (hb : biases[j]? = some b) :
    biasOf l c = b := by
  rw [biasOf_eq, hj, List.getD_eq_getElem?_getD, hb, Option.getD_some]

/-- Settles O26: the bias is that of the setting, which is found in the code table; a DEPTH field that holds no code has the
setting behind the last. -/
theorem biasFollowsTheDepthField : Obligations.BiasFollowsTheDepthField := by
  refine ⟨fun l c j b hnodup hcode hb => biasOf_of_setting (settingOf_eq (f := .depth) hnodup hcode) hb,
    fun l c hl hno => ?unknown, fun l e j b hl he hcode hb => ?packed, fun c => ?default, fun f n => ?fresh⟩
  case unknown =>
    obtain ⟨-, hlen, -⟩ := fieldOk_of_layoutOk hl .depth
    have hno : (unpackField l .depth c).toNat ∉ codesOfField l .depth := hno
    rw [biasOf_eq, settingOf, List.idxOf_eq_length hno, hlen]
    rfl
  case packed =>
    obtain ⟨-, -, hnodup, -⟩ := fieldOk_of_layoutOk hl .depth
    refine biasOf_of_setting (settingOf_eq (f := .depth) hnodup ?_) hb
    rw [toNat_unpackField_pack hl he]
    exact hcode
  case default =>
    have hfield : (unpackField cmdLayout .depth c).toNat = (c.extractLsb' 8 2).toNat := by
      rw [toNat_unpackField (by decide), BitVec.extractLsb'_toNat]
      rfl
    have hlt : (c.extractLsb' 8 2).toNat < 4 := (c.extractLsb' 8 2).isLt
    have hsetting : settingOf cmdLayout .depth c = (c.extractLsb' 8 2).toNat := by
      refine settingOf_eq (by decide) ?_
      rw [codesOfField_cmdLayout, hfield]
      exact List.getElem?_range hlt
    rw [biasOf_eq, hsetting, List.getD_eq_getElem _ _ hlt, List.getD_eq_getElem _ _ hlt]
    rfl
  case fresh =>
    show biasOf cmdLayout 0 = 255
    decide

end Sys2Proof.Machine
end

/-! ## Proofs: scaled data assignment (43_data_assign.md R124, R127) -/

section
namespace Sys2Proof.Machine

/-! ### What DATA_SET stores -/

/-- The words DATA_SET of the values stores in a state, and how many draws it makes. -/
def State.assigned (s : State) (vals : Values) : List Word × Nat :=
  scaleAll vals.format (biasOf s.params.layout (s.cmd 0)) s.draws vals.patterns

theorem exec_dataSet (idx : Int) (vals : Values) (s : State) :
    exec (.dataSet idx vals) s
      = takeInIdle s ((s.setSlot (slotOf s.n idx) (s.assigned vals).1).afterDraws (s.assigned vals).2) := rfl

theorem exec_dataSet_idle {s : State} (h : s.seq = .idle) (idx : Int) (vals : Values) :
    exec (.dataSet idx vals) s
      = .next ((s.setSlot (slotOf s.n idx) (s.assigned vals).1).afterDraws (s.assigned vals).2) :=
  takeInIdle_idle h _

@[simp] theorem length_assigned (s : State) (vals : Values) : (s.assigned vals).1.length = 12 :=
  scaleAll_values_length ..

/-- One draw for each value in the unspecified case. -/
theorem draws_assigned (s : State) (vals : Values) :
    (s.assigned vals).2 = vals.patterns.countP fun u => (s.scaled vals.format u).isNone :=
  scaleAll_draws ..

/-- The entry of channel `k` after DATA_SET: its scaled value where it is defined, else the draw that follows those of the
channels before it. -/
theorem gs_assigned {s : State} (hs : s.chain.wf = true) (slot d : Nat) {vals : Values} {k v : Nat}
    (hv : vals.patterns[k]? = some v) :
    ((s.setSlot slot (s.assigned vals).1).afterDraws d).gs slot k
      = (s.scaled vals.format v).getD
        (Config.freeWord (s.draws + (vals.patterns.take k).countP fun u => (s.scaled vals.format u).isNone)) := by
  have hword := scaleAll_getElem? vals.format (biasOf s.params.layout (s.cmd 0)) s.draws vals.patterns hv
  obtain ⟨hk, hword⟩ := List.getElem?_eq_some_iff.1 hword
  exact (State.gs_setSlot hs slot (s.assigned vals).1 hk).trans hword

/-- The `k`-th pattern of a request of format RN is its field of the format's width at `35 + width·k` (30_encoding.md R57). -/
theorem valsOf_patterns_getElem? (f : FpFormat) (r : Request) {k : Nat} (hk : k < 12) :
    (valsOf f r).patterns[k]? = some (r.bits.extractLsb' (35 + f.width * k) f.width).toNat := by
  rw [Values.patterns, valsOf, channels_toList_ofIndex, List.getElem?_map, List.getElem?_map, List.getElem?_range hk,
    Option.map_some, Option.map_some]

/-- A request of format RN, op 100, is DATA_SET of its fields. -/
theorem decodeRequest_dataSet {f : FpFormat} {r : Request} (hlen : r.len = 35 + 12 * f.width) (hop : opOf r = 4#3) :
    decodeRequest f r = .ok (.dataSet (idxOf r) (valsOf f r)) := by
  rw [decodeRequest_op4 f hop, ifLength_eq_ok_iff]
  exact ⟨hlen, rfl⟩

/-- Settles O25: the entries are those of `gs_assigned`, and the fields of a request of format RN are its index and its values. -/
theorem dataSetStoresScaledOrDrawn : Obligations.DataSetStoresScaledOrDrawn := by
  refine ⟨fun idx vals s hidle hs => ?exec, fun r s hport hop hidle hs hlen => ?request⟩
  case exec =>
    refine ⟨_, exec_dataSet_idle hidle idx vals, fun k v w hv hw => ?_, fun k v hv hnone => ?_, fun a ha => ?_, ?_⟩
    · rw [gs_assigned hs _ _ hv, hw, Option.getD_some]
    · rw [gs_assigned hs _ _ hv, hnone, Option.getD_none]
    · exact State.memRead_setSlot_other s _ _ (by rw [length_assigned]; omega)
    · rw [draws_assigned]
      rfl
  case request =>
    have hrun := exec_dataSet_idle (s := { s with port := none }) hidle (idxOf r) (valsOf s.params.format r)
    refine ⟨_, (step_request hport (decodeRequest_dataSet hlen hop)).trans hrun, fun k w hk hw => ?_⟩
    have hentry := gs_assigned (s := { s with port := none }) hs (slotOf s.n (idxOf r))
      (State.assigned { s with port := none } (valsOf s.params.format r)).2 (valsOf_patterns_getElem? s.params.format r hk)
    exact hentry.trans (congrArg (Option.getD · _) hw)

/-! ### DATA_SET and DATA_RAW_SET -/

/-- Where every value is defined the words are the scaled values, without a draw. -/
theorem scaleAll_eq_of_map {f : FpFormat} {b : Nat} (d : Nat) {vs : List Nat} {ws : List Word}
    (h : (vs.map fun v => scaleOf f v b) = ws.map some) : scaleAll f b d vs = (ws, 0) := by
  induction vs generalizing ws with
  | nil =>
    obtain rfl := List.map_eq_nil_iff.1 h.symm
    rfl
  | cons v vs ih =>
    cases ws with
    | nil => cases h
    | cons w ws =>
      obtain ⟨hv, hvs⟩ : scaleOf f v b = some w ∧ (vs.map fun v => scaleOf f v b) = ws.map some := List.cons.inj h
      rw [scaleAll, hv]
      simp only [ih hvs]

/-- Settles O33: without a draw the two operations write the same words to the same slot. -/
theorem dataSetActsAsDataRawSetOfTheScaledValues : Obligations.DataSetActsAsDataRawSetOfTheScaledValues := by
  intro idx vals mags s h
  have hwords : s.assigned vals = (mags.toList, 0) := scaleAll_eq_of_map s.draws h
  rw [exec_dataSet, hwords]
  rfl

/-! ### What DATA_SET reads -/

theorem biasOf_congr {l : Layout} {c c' : Word} (h : unpackField l .depth c = unpackField l .depth c') :
    biasOf l c = biasOf l c' := by
  rw [biasOf_eq, biasOf_eq, settingOf, settingOf, h]

/-- Settles O34: the words depend on the bias, the parameters and the draws made, the slot on N. -/
theorem dataSetReadsOnlyTheDepthField : Obligations.DataSetReadsOnlyTheDepthField := by
  intro idx vals s s' t t' hs hs' hn hparams hdraws hdepth ht ht' k hk
  have hwords : s'.assigned vals = s.assigned vals := by
    rw [State.assigned, State.assigned, ← hparams, ← hdraws, biasOf_congr hdepth]
  obtain ⟨-, rfl⟩ := takeInIdle_next ht
  obtain ⟨-, rfl⟩ := takeInIdle_next ht'
  have hleft := State.gs_setSlot hs (slotOf s.n idx) (s.assigned vals).1 (k := k) (by simpa using hk)
  have hright := State.gs_setSlot hs' (slotOf s.n idx) (s'.assigned vals).1 (k := k) (by simpa using hk)
  rw [← hn]
  exact hleft.trans (hright.trans (by simp only [hwords])).symm

/-! ### Setters repeated (20_memory.md R36) -/

/-- Writing the command words that are there already changes nothing. -/
theorem Memory.writeCommands_eq_self {m : Memory} (hm : m.wf = true) {c : Word} {n : Nat}
    (h : ∀ i, i < n → m.read (13 * i) = c) : m.writeCommands c n = m := by
  refine Memory.ext_read (Memory.wf_writeCommands hm c n) hm fun a => ?_
  by_cases ha : ∃ i, i < n ∧ a = 13 * i
  · obtain ⟨i, hi, rfl⟩ := ha
    rw [Memory.read_writeCommands_same hm c hi, h i hi]
  · exact Memory.read_writeCommands_other m c fun i hi hai => ha ⟨i, hi, hai⟩

/-- Writing the words that are there already changes nothing. -/
theorem Memory.writeWords_eq_self {m : Memory} (hm : m.wf = true) {a : Nat} {vs : List Word}
    (h : ∀ k (hk : k < vs.length), m.read (a + k) = vs[k]) : m.writeWords a vs = m := by
  refine Memory.ext_read (Memory.wf_writeWords hm a vs) hm fun b => ?_
  by_cases hb : a ≤ b ∧ b < a + vs.length
  · obtain ⟨k, rfl⟩ := Nat.exists_eq_add_of_le hb.1
    rw [Memory.read_writeWords_same hm a vs (by omega), h k (by omega)]
  · exact Memory.read_writeWords_other m vs (by omega)

theorem State.setCommands_idem {s : State} (hs : s.chain.wf = true) (c : Word) :
    (s.setCommands c).setCommands c = s.setCommands c := by
  have hchain : (s.chain.writeCommands c s.n).writeCommands c s.n = s.chain.writeCommands c s.n :=
    Memory.writeCommands_eq_self (Memory.wf_writeCommands hs c s.n) fun i hi => Memory.read_writeCommands_same hs c hi
  exact congrArg (fun m => { s with chain := m }) hchain

theorem State.setSlot_idem {s : State} (hs : s.chain.wf = true) (i : Nat) (vs : List Word) :
    (s.setSlot i vs).setSlot i vs = s.setSlot i vs := by
  have hchain : (s.chain.writeWords (13 * i + 1) vs).writeWords (13 * i + 1) vs = s.chain.writeWords (13 * i + 1) vs :=
    Memory.writeWords_eq_self (Memory.wf_writeWords hs _ vs) fun k hk => Memory.read_writeWords_same hs _ vs hk
  exact congrArg (fun m => { s with chain := m }) hchain

theorem exec_cmdRawSet_again {w : Word} {s t : State} (hs : s.chain.wf = true) (h : exec (.cmdRawSet w) s = .next t) :
    exec (.cmdRawSet w) t = .next t := by
  obtain ⟨hidle, rfl⟩ := takeInIdle_next h
  rw [exec_cmdRawSet_idle (s := s.setCommands w) hidle, State.setCommands_idem hs]

/-- Without a draw DATA_SET leaves the bias and the draws as they were, so it stores the same words again. -/
theorem exec_dataSet_again {idx : Int} {vals : Values} {s t : State} (hs : s.chain.wf = true)
    (hdefined : ∀ v ∈ vals.patterns, (s.scaled vals.format v).isSome = true) (h : exec (.dataSet idx vals) s = .next t) :
    exec (.dataSet idx vals) t = .next t := by
  have hnone : (s.assigned vals).2 = 0 := by
    rw [draws_assigned, List.countP_eq_zero]
    intro v hv
    simpa using Option.isSome_iff_ne_none.1 (hdefined v hv)
  obtain ⟨hidle, ht⟩ := takeInIdle_next h
  replace ht : t = s.setSlot (slotOf s.n idx) (s.assigned vals).1 := by
    rw [ht]
    show (s.setSlot (slotOf s.n idx) (s.assigned vals).1).afterDraws (s.assigned vals).2 = _
    rw [hnone]
    rfl
  have hcmd : t.cmd 0 = s.cmd 0 := ht ▸ State.cmd_setSlot s _ (length_assigned s vals) 0
  have hwords : t.assigned vals = s.assigned vals := by
    rw [State.assigned, hcmd, ht]
    rfl
  rw [exec_dataSet_idle (ht ▸ hidle), hwords, hnone, ht]
  exact congrArg _ (State.setSlot_idem hs _ _)

/-- Settles O35: each setter writes the words that are there already. -/
theorem settersAreIdempotent : Obligations.SettersAreIdempotent := by
  refine ⟨fun w s t => exec_cmdRawSet_again, fun e s t hs he h => ?set, fun idx mags s t hs h => ?rawData,
    fun idx vals s t => exec_dataSet_again⟩
  case set =>
    rw [exec_cmdSet_inRange he] at h
    have hparams := exec_keeps_params h
    have hagain := exec_cmdRawSet_again hs h
    rw [← hparams] at he hagain
    rw [exec_cmdSet_inRange he, hagain]
  case rawData =>
    obtain ⟨hidle, rfl⟩ := takeInIdle_next h
    rw [exec_dataRawSet_idle (s := s.setSlot _ _) hidle, State.setSlot_n, State.setSlot_idem hs]

end Sys2Proof.Machine
end

/-! ## Proofs: the number of a bit pattern and its conversion (30_encoding.md R57; 43_data_assign.md R126, R127) -/

section
namespace Sys2Proof.Machine

/-! ### Magnitudes -/

theorem magnitude_nonneg (m : Nat) (e : Int) : 0 ≤ magnitude m e := by
  unfold magnitude
  positivity

/-- A larger exponent is a larger significand. -/
theorem magnitude_add (m : Nat) (e : Int) (k : Nat) : magnitude m (e + k) = magnitude (m * 2 ^ k) e := by
  rw [magnitude, magnitude, zpow_add₀ two_ne_zero, zpow_natCast]
  push_cast
  ring

/-- The number `(−1)^neg · m · 2^e`. -/
def signedMagnitude (neg : Bool) (m : Nat) (e : Int) : ℚ := (if neg then -1 else 1) * magnitude m e

theorem fpValue_finite (neg : Bool) (m : Nat) (e : Int) : fpValue (.finite neg m e) = some (signedMagnitude neg m e) := by
  cases neg <;> simp [fpValue, signedMagnitude]

/-! ### The value of a bit pattern -/

/-- The value a bit pattern of the format stands for, by its fields. -/
theorem fpOfBits_toNat (f : FpFormat) (v : BitVec f.width) :
    fpOfBits f v.toNat =
      if v.extractLsb' f.fracBits f.expBits = BitVec.allOnes f.expBits then
        if (v.extractLsb' 0 f.fracBits).toNat = 0 then .inf (v.getLsbD (f.fracBits + f.expBits)) else .nan
      else if v.extractLsb' f.fracBits f.expBits = 0 then
        .finite (v.getLsbD (f.fracBits + f.expBits)) (v.extractLsb' 0 f.fracBits).toNat (fpMinExp f)
      else .finite (v.getLsbD (f.fracBits + f.expBits)) (2 ^ f.fracBits + (v.extractLsb' 0 f.fracBits).toNat)
        (fpMinExp f + (v.extractLsb' f.fracBits f.expBits).toNat - 1) := by
  have hfrac : (v.extractLsb' 0 f.fracBits).toNat = v.toNat % 2 ^ f.fracBits := by simp
  have hexp : (v.extractLsb' f.fracBits f.expBits).toNat = v.toNat / 2 ^ f.fracBits % 2 ^ f.expBits := by
    rw [BitVec.extractLsb'_toNat, Nat.shiftRight_eq_div_pow]
  have hsign : v.getLsbD (f.fracBits + f.expBits) = decide (v.toNat / 2 ^ (f.fracBits + f.expBits) % 2 = 1) := by
    rw [BitVec.getLsbD, Nat.testBit_eq_decide_div_mod_eq]
  have hones : v.extractLsb' f.fracBits f.expBits = BitVec.allOnes f.expBits ↔
      v.toNat / 2 ^ f.fracBits % 2 ^ f.expBits = 2 ^ f.expBits - 1 := by
    rw [← BitVec.toNat_inj, hexp, BitVec.toNat_allOnes]
  have hzero : v.extractLsb' f.fracBits f.expBits = 0 ↔ v.toNat / 2 ^ f.fracBits % 2 ^ f.expBits = 0 := by
    rw [← BitVec.toNat_inj, hexp]
    rfl
  simp only [hfrac, hexp, hsign, hones, hzero]
  rfl

theorem magnitude_subnormal (f : FpFormat) (m : Nat) :
    magnitude m (fpMinExp f) = (m : ℚ) / 2 ^ f.fracBits * (2 : ℚ) ^ (1 - fpBias f) := by
  rw [magnitude, fpMinExp, zpow_sub₀ two_ne_zero, zpow_natCast]
  ring

theorem magnitude_normal (f : FpFormat) (m e : Nat) :
    magnitude (2 ^ f.fracBits + m) (fpMinExp f + e - 1)
      = (1 + (m : ℚ) / 2 ^ f.fracBits) * (2 : ℚ) ^ ((e : Int) - fpBias f) := by
  have hexp : fpMinExp f + e - 1 = e - fpBias f - f.fracBits := by
    rw [fpMinExp]
    ring
  have hpos : (2 : ℚ) ^ f.fracBits ≠ 0 := by positivity
  rw [magnitude, hexp, zpow_sub₀ two_ne_zero, zpow_natCast]
  push_cast
  field_simp

/-- Settles O27: the pattern by its fields, and the magnitude of each kind of number. -/
theorem operandBitsGiveTheirValue : Obligations.OperandBitsGiveTheirValue := by
  refine ⟨fun f v => ?_, rfl, rfl, by decide, rfl, rfl, by decide⟩
  rw [fpOfBits_toNat]
  split
  · split <;> rfl
  · split
    · rw [fpValue_finite, signedMagnitude, magnitude_subnormal]
    · rw [fpValue_finite, signedMagnitude, magnitude_normal]

/-! ### Truncation -/

theorem truncMagnitude_eq_floor (m : Nat) (e : Int) : truncMagnitude m e = ⌊magnitude m e⌋₊ := by
  cases e with
  | ofNat k =>
    have hnat : magnitude m (Int.ofNat k) = ((m * 2 ^ k : Nat) : ℚ) := by
      simp [magnitude]
    rw [hnat, Nat.floor_natCast]
    rfl
  | negSucc k =>
    have hdiv : magnitude m (Int.negSucc k) = (m : ℚ) / ((2 ^ (k + 1) : Nat) : ℚ) := by
      rw [magnitude, zpow_negSucc]
      push_cast
      rfl
    rw [hdiv, Nat.floor_div_eq_div]
    rfl

theorem truncToward_of_nonneg {x : ℚ} (h : 0 ≤ x) : truncToward x = ⌊x⌋₊ := by
  rw [truncToward, if_pos h, Int.natCast_floor_eq_floor h]

theorem truncToward_neg (x : ℚ) : truncToward (-x) = -truncToward x := by
  unfold truncToward
  rcases lt_trichotomy x 0 with h | rfl | h
  · rw [if_pos (by linarith), if_neg (by linarith), Int.floor_neg]
  · simp
  · rw [if_neg (by linarith), if_pos (by linarith), Int.ceil_neg]

/-- The words that stand for a number below 65536. -/
theorem ofNat_eq_iff_toNat {t : Nat} (ht : t < 65536) (v : Word) : BitVec.ofNat 16 t = v ↔ v.toNat = t := by
  rw [← BitVec.toNat_inj, BitVec.toNat_ofNat, Nat.mod_eq_of_lt ht, eq_comm]

/-- A number that is not negative is stored if it is below 65536. -/
theorem fpTrunc16_pos_iff (m : Nat) (e : Int) (v : Word) :
    fpTrunc16 (.finite false m e) = some v ↔ magnitude m e < 65536 ∧ v.toNat = ⌊magnitude m e⌋₊ := by
  have hlt : ⌊magnitude m e⌋₊ < 65536 ↔ magnitude m e < 65536 := Nat.floor_lt (magnitude_nonneg m e)
  simp only [fpTrunc16, truncMagnitude_eq_floor, Bool.false_eq_true, false_and, true_and, false_or]
  split
  · rename_i ht
    rw [Option.some_inj, ofNat_eq_iff_toNat ht, ← hlt]
    exact ⟨fun h => ⟨ht, h⟩, fun h => h.2⟩
  · rename_i ht
    rw [← hlt]
    exact ⟨nofun, fun h => absurd h.1 ht⟩

/-- A negative number is stored, as 0, if it is above −1. -/
theorem fpTrunc16_neg_iff (m : Nat) (e : Int) (v : Word) :
    fpTrunc16 (.finite true m e) = some v ↔ magnitude m e < 1 ∧ v.toNat = ⌊magnitude m e⌋₊ := by
  have hlt : ⌊magnitude m e⌋₊ = 0 ↔ magnitude m e < 1 := Nat.floor_eq_zero
  simp only [fpTrunc16, truncMagnitude_eq_floor, Bool.true_eq_false, false_and, true_and, or_false]
  split
  · rename_i ht
    rw [Option.some_inj, ofNat_eq_iff_toNat (by omega), ← hlt]
    exact ⟨fun h => ⟨ht, h⟩, fun h => h.2⟩
  · rename_i ht
    rw [← hlt]
    exact ⟨nofun, fun h => absurd h.1 ht⟩

/-- The conversion of a finite value, by the number it stands for (43_data_assign.md R126). -/
theorem fpTrunc16_finite_iff (neg : Bool) (m : Nat) (e : Int) (v : Word) :
    fpTrunc16 (.finite neg m e) = some v ↔
      -1 < signedMagnitude neg m e ∧ signedMagnitude neg m e < 65536 ∧
        (v.toNat : Int) = truncToward (signedMagnitude neg m e) := by
  have hmag := magnitude_nonneg m e
  cases neg with
  | false =>
    have hx : signedMagnitude false m e = magnitude m e := one_mul _
    rw [fpTrunc16_pos_iff, hx, truncToward_of_nonneg hmag, Nat.cast_inj]
    exact ⟨fun ⟨hlt, hv⟩ => ⟨by linarith, hlt, hv⟩, fun ⟨_, hlt, hv⟩ => ⟨hlt, hv⟩⟩
  | true =>
    have hx : signedMagnitude true m e = -magnitude m e := neg_one_mul _
    rw [fpTrunc16_neg_iff, hx, truncToward_neg, truncToward_of_nonneg hmag]
    refine ⟨fun ⟨hlt, hv⟩ => ⟨by linarith, by linarith, ?_⟩, fun ⟨hgt, _, hv⟩ => ⟨by linarith, by omega⟩⟩
    have hfloor : ⌊magnitude m e⌋₊ = 0 := Nat.floor_eq_zero.2 hlt
    omega

/-- Settles O29: a NaN or an infinity is no number and has no conversion. -/
theorem conversionTruncatesTowardZero : Obligations.ConversionTruncatesTowardZero := by
  intro p v
  cases p with
  | nan => simp [fpTrunc16, fpValue]
  | inf neg => simp [fpTrunc16, fpValue]
  | finite neg m e =>
    rw [fpTrunc16_finite_iff, fpValue_finite]
    simp

end Sys2Proof.Machine
end

/-! ## Proofs: rounding to nearest, ties to even (43_data_assign.md R126) -/

section
namespace Sys2Proof.Machine

/-! ### Rounding a quotient by a power of two -/

theorem roundShift_zero (m : Nat) : roundShift m 0 = m := by
  simp [roundShift, Nat.mod_one]

theorem roundShift_ge (m k : Nat) : m / 2 ^ k ≤ roundShift m k := by
  simp only [roundShift]
  split <;> omega

theorem roundShift_le (m k : Nat) : roundShift m k ≤ m / 2 ^ k + 1 := by
  simp only [roundShift]
  split <;> omega

/-- A tie is rounded to the even quotient. -/
theorem roundShift_even_of_tie {m k : Nat} (h : 2 * (m % 2 ^ k) = 2 ^ k) : roundShift m k % 2 = 0 := by
  simp only [roundShift]
  split <;> omega

/-- The distance between two numbers. -/
def distance (a b : Nat) : Nat := (a - b : Int).natAbs

/-- With `m = q·P + r` a multiple of `P = 2^k` is at distance `r` (at `q`), `P − r` (at `q + 1`), or at least `P` more than one of
them: no multiple of `2^k` is nearer than the rounded quotient's, and another is as near in a tie only. -/
theorem roundShift_nearest (m k j : Nat) :
    distance (roundShift m k * 2 ^ k) m ≤ distance (j * 2 ^ k) m ∧
      (distance (j * 2 ^ k) m = distance (roundShift m k * 2 ^ k) m → j ≠ roundShift m k → 2 * (m % 2 ^ k) = 2 ^ k) := by
  have hpos : 0 < 2 ^ k := Nat.two_pow_pos k
  simp only [roundShift, distance]
  generalize 2 ^ k = P at *
  have hdiv := Nat.div_add_mod m P
  have hlt := Nat.mod_lt m hpos
  generalize m / P = q at *
  generalize m % P = r at *
  subst hdiv
  have hbelow : j < q → j * P + P ≤ P * q := fun h => by nlinarith
  have habove : q + 1 < j → P * q + 2 * P ≤ j * P := fun h => by nlinarith
  have hat : j = q → j * P = P * q := fun h => by rw [h, Nat.mul_comm]
  have hnext : j = q + 1 → j * P = P * q + P := fun h => by rw [h]; ring
  have hq : q * P = P * q := Nat.mul_comm ..
  have hq' : (q + 1) * P = P * q + P := by ring
  split
  · rw [hq']
    generalize P * q = X at *
    generalize j * P = Y at *
    omega
  · rw [hq]
    generalize P * q = X at *
    generalize j * P = Y at *
    omega

/-! ### The rounded product as a number -/

/-- The significand the exact value `m · 2^exp` is rounded to. -/
def roundedMant (f : FpFormat) (m : Nat) (exp : Int) : Nat := roundShift m (excessBits f m exp)

/-- The exponent of the rounded value. -/
def roundedExp (f : FpFormat) (m : Nat) (exp : Int) : Int := exp + (excessBits f m exp : Nat)

/-- The rounded value. -/
def rounded (f : FpFormat) (m : Nat) (exp : Int) : ℚ := magnitude (roundedMant f m exp) (roundedExp f m exp)

theorem rounded_nonneg (f : FpFormat) (m : Nat) (exp : Int) : 0 ≤ rounded f m exp := magnitude_nonneg ..

theorem magnitude_le_magnitude {a b : Nat} (h : a ≤ b) (e : Int) : magnitude a e ≤ magnitude b e := by
  unfold magnitude
  gcongr

theorem magnitude_lt_magnitude {a b : Nat} (h : a < b) (e : Int) : magnitude a e < magnitude b e := by
  unfold magnitude
  gcongr

theorem abs_magnitude_sub (a b : Nat) (e : Int) :
    |magnitude a e - magnitude b e| = (distance a b : ℚ) * (2 : ℚ) ^ e := by
  have hpos : (0 : ℚ) < (2 : ℚ) ^ e := by positivity
  rw [magnitude, magnitude, ← sub_mul, abs_mul, abs_of_pos hpos, distance, Nat.cast_natAbs]
  push_cast
  rfl

/-! ### How many bits are dropped -/

theorem fpMinExp_le_roundedExp (f : FpFormat) (m : Nat) (exp : Int) : fpMinExp f ≤ roundedExp f m exp := by
  rw [roundedExp, excessBits]
  omega

/-- Bits are dropped only down to the smallest exponent, or as long as a full significand remains. -/
theorem excessBits_cases (f : FpFormat) (m : Nat) (exp : Int) :
    excessBits f m exp = 0 ∨ roundedExp f m exp = fpMinExp f ∨ 2 ^ f.fracBits * 2 ^ excessBits f m exp ≤ m := by
  rcases Nat.eq_zero_or_pos (excessBits f m exp) with h0 | hpos
  · exact .inl h0
  · rcases Nat.le_total (Nat.log2 m - f.fracBits) (fpMinExp f - exp).toNat with hle | hle
    · refine .inr (.inl ?_)
      rw [roundedExp]
      rw [excessBits] at hpos ⊢
      omega
    · refine .inr (.inr ?_)
      have hlog : Nat.log2 m = f.fracBits + excessBits f m exp := by
        rw [excessBits] at hpos ⊢
        omega
      have hm : m ≠ 0 := by
        rintro rfl
        rw [Nat.log2_zero] at hlog
        omega
      rw [← Nat.pow_add, ← hlog]
      exact Nat.log2_self_le hm

/-- The significand has no more bits than the format has room for. -/
theorem roundedMant_le (f : FpFormat) (m : Nat) (exp : Int) : roundedMant f m exp ≤ 2 ^ (f.fracBits + 1) := by
  have hlog : Nat.log2 m ≤ f.fracBits + excessBits f m exp := by
    rw [excessBits]
    omega
  have hm : m < 2 ^ (f.fracBits + 1) * 2 ^ excessBits f m exp := by
    rw [← Nat.pow_add]
    exact Nat.lt_log2_self.trans_le (Nat.pow_le_pow_right (by decide) (by omega))
  have hq := Nat.div_lt_of_lt_mul (Nat.mul_comm .. ▸ hm)
  have := roundShift_le m (excessBits f m exp)
  rw [roundedMant]
  omega

/-- A full significand that is carried beyond the format is half of it at the next exponent. -/
theorem magnitude_carry (n : Nat) (e : Int) : magnitude (2 ^ (n + 1)) e = magnitude (2 ^ n) (e + 1) := by
  rw [show e + 1 = e + (1 : Nat) from rfl, magnitude_add, Nat.pow_succ, Nat.pow_one]

/-- The rounded value is a number of the format, its upper limit apart. -/
theorem representable_rounded (f : FpFormat) (m : Nat) (exp : Int) : representable f (rounded f m exp) := by
  have hexp := fpMinExp_le_roundedExp f m exp
  rcases Nat.lt_or_eq_of_le (roundedMant_le f m exp) with hlt | heq
  · exact ⟨_, _, hlt, hexp, rfl⟩
  · refine ⟨2 ^ f.fracBits, roundedExp f m exp + 1, Nat.pow_lt_pow_right (by decide) (by omega), by omega, ?_⟩
    rw [rounded, heq, magnitude_carry]

/-- In a tie the rounded value has an even significand. -/
theorem evenSignificand_rounded {f : FpFormat} (hf : 1 ≤ f.fracBits) {m : Nat} {exp : Int}
    (htie : 2 * (m % 2 ^ excessBits f m exp) = 2 ^ excessBits f m exp) : evenSignificand f (rounded f m exp) := by
  have hexp := fpMinExp_le_roundedExp f m exp
  rcases Nat.lt_or_eq_of_le (roundedMant_le f m exp) with hlt | heq
  · refine ⟨roundedMant f m exp, roundedExp f m exp, hlt, hexp, ?_, roundShift_even_of_tie htie, rfl⟩
    rcases excessBits_cases f m exp with h0 | hmin | hfull
    · rw [h0] at htie
      omega
    · exact .inr hmin
    · exact .inl (((Nat.le_div_iff_mul_le (Nat.two_pow_pos _)).2 hfull).trans (roundShift_ge ..))
  · have heven : 2 ^ f.fracBits % 2 = 0 := by
      rw [show f.fracBits = f.fracBits - 1 + 1 by omega, Nat.pow_succ]
      omega
    refine ⟨2 ^ f.fracBits, roundedExp f m exp + 1, Nat.pow_lt_pow_right (by decide) (by omega), by omega, .inl le_rfl, heven, ?_⟩
    rw [rounded, heq, magnitude_carry]

/-! ### Nearness -/

/-- A number of the format with a smaller exponent than `e` is smaller than a full significand at `e`. -/
theorem magnitude_lt_full {n m : Nat} {e e' : Int} (hm : m < 2 ^ (n + 1)) (he : e' < e) :
    magnitude m e' < magnitude (2 ^ n) e := by
  obtain ⟨k, rfl⟩ : ∃ k : Nat, e = e' + 1 + k := ⟨(e - (e' + 1)).toNat, by omega⟩
  calc magnitude m e'
    _ < magnitude (2 ^ (n + 1)) e' := magnitude_lt_magnitude hm e'
    _ = magnitude (2 ^ n) (e' + 1) := magnitude_carry ..
    _ ≤ magnitude (2 ^ n * 2 ^ k) (e' + 1) := magnitude_le_magnitude (Nat.le_mul_of_pos_right _ (Nat.two_pow_pos k)) _
    _ = magnitude (2 ^ n) (e' + 1 + k) := (magnitude_add ..).symm

/-- A number with an exponent from `e` up is a multiple of `2^e`. -/
theorem magnitude_eq_multiple (m : Nat) {e e' : Int} (he : e ≤ e') :
    magnitude m e' = magnitude (m * 2 ^ (e' - e).toNat) e := by
  rw [← magnitude_add, Int.toNat_of_nonneg (by omega), add_sub_cancel]

/-- No multiple of `2^e` is nearer to the exact value than the rounded one, and another is as near in a tie only. -/
theorem rounded_nearest_multiple (f : FpFormat) (m : Nat) (exp : Int) (j : Nat) :
    let x := magnitude m exp
    let y := magnitude j (roundedExp f m exp)
    |rounded f m exp - x| ≤ |y - x| ∧ (|y - x| = |rounded f m exp - x| → y ≠ rounded f m exp →
      2 * (m % 2 ^ excessBits f m exp) = 2 ^ excessBits f m exp) := by
  have hpos : (0 : ℚ) < (2 : ℚ) ^ exp := by positivity
  obtain ⟨hle, htie⟩ := roundShift_nearest m (excessBits f m exp) j
  simp only [rounded, roundedExp, roundedMant, magnitude_add, abs_magnitude_sub]
  refine ⟨by gcongr, fun heq hne => htie ?_ fun hj => hne (by rw [hj])⟩
  exact_mod_cast mul_right_cancel₀ hpos.ne' heq

/-- No number of the format is nearer to the exact value than the rounded one, and another is as near in a tie only. -/
theorem rounded_nearest {f : FpFormat} {m : Nat} {exp : Int} {y : ℚ} (hy : representable f y) :
    |rounded f m exp - magnitude m exp| ≤ |y - magnitude m exp| ∧
      (|y - magnitude m exp| = |rounded f m exp - magnitude m exp| → y ≠ rounded f m exp →
        2 * (m % 2 ^ excessBits f m exp) = 2 ^ excessBits f m exp) := by
  obtain ⟨m', e', hm', hmin, rfl⟩ := hy
  rcases le_or_gt (roundedExp f m exp) e' with hle | hlt
  · rw [magnitude_eq_multiple m' hle]
    exact rounded_nearest_multiple f m exp _
  · have hfar := magnitude_lt_full hm' hlt
    rcases excessBits_cases f m exp with h0 | hexp | hfull
    · have hexact : rounded f m exp = magnitude m exp := by
        rw [rounded, roundedMant, roundedExp, h0, roundShift_zero, Nat.cast_zero, add_zero]
      rw [hexact, sub_self, abs_zero]
      exact ⟨abs_nonneg _, fun heq hne => absurd (sub_eq_zero.1 (abs_eq_zero.1 heq)) hne⟩
    · omega
    · have hbelow : magnitude (2 ^ f.fracBits) (roundedExp f m exp) ≤ magnitude m exp := by
        rw [roundedExp, magnitude_add]
        exact magnitude_le_magnitude hfull exp
      have hnear := (rounded_nearest_multiple f m exp (2 ^ f.fracBits)).1
      have hstrict : |rounded f m exp - magnitude m exp| < |magnitude m' e' - magnitude m exp| := by
        refine hnear.trans_lt ?_
        rw [abs_of_nonpos (by linarith), abs_of_nonpos (by linarith)]
        linarith
      exact ⟨hstrict.le, fun heq => absurd heq hstrict.ne'⟩

/-! ### Overflow -/

/-- A magnitude reaches a power of two exactly if its leading bit does. -/
theorem two_zpow_le_magnitude_iff (q : Nat) (e t : Int) :
    (2 : ℚ) ^ t ≤ magnitude q e ↔ q ≠ 0 ∧ t ≤ Nat.log2 q + e := by
  rcases Nat.eq_zero_or_pos q with rfl | hq
  · have hpos : (0 : ℚ) < (2 : ℚ) ^ t := by positivity
    simp [magnitude, hpos]
  · have hlow : (2 : ℚ) ^ (Nat.log2 q + e) ≤ magnitude q e := by
      rw [zpow_add₀ two_ne_zero, zpow_natCast, magnitude]
      gcongr
      exact_mod_cast Nat.log2_self_le hq.ne'
    have hhigh : magnitude q e < (2 : ℚ) ^ (Nat.log2 q + 1 + e) := by
      rw [show ((Nat.log2 q : Int) + 1 + e) = ((Nat.log2 q + 1 : Nat) : Int) + e by push_cast; rfl, zpow_add₀ two_ne_zero,
        zpow_natCast, magnitude]
      gcongr
      exact_mod_cast Nat.lt_log2_self
    refine ⟨fun h => ⟨hq.ne', ?_⟩, fun ⟨_, h⟩ => (zpow_le_zpow_right₀ one_le_two h).trans hlow⟩
    have := (zpow_lt_zpow_iff_right₀ (one_lt_two (α := ℚ))).1 (h.trans_lt hhigh)
    omega

/-- The rounded value is too large for the format. -/
def overflows (f : FpFormat) (m : Nat) (exp : Int) : Prop :=
  roundedMant f m exp ≠ 0 ∧ fpBias f < Nat.log2 (roundedMant f m exp) + roundedExp f m exp

theorem overflows_iff (f : FpFormat) (m : Nat) (exp : Int) :
    overflows f m exp ↔ (2 : ℚ) ^ (fpBias f + 1) ≤ rounded f m exp := by
  rw [rounded, two_zpow_le_magnitude_iff, overflows, Int.add_one_le_iff]

theorem fpRound_of_overflows {f : FpFormat} {neg : Bool} {m : Nat} {exp : Int} (h : overflows f m exp) :
    fpRound f neg m exp = .inf neg :=
  if_pos h

theorem fpRound_of_not_overflows {f : FpFormat} {neg : Bool} {m : Nat} {exp : Int} (h : ¬ overflows f m exp) :
    fpRound f neg m exp = .finite neg (roundedMant f m exp) (roundedExp f m exp) :=
  if_neg h

/-- Settles O30: `representable_rounded`, `rounded_nearest`, `roundShift_even_of_tie` and `overflows_iff`. -/
theorem productRoundsToNearestEven : Obligations.ProductRoundsToNearestEven := by
  refine fun f b => ⟨fun neg mant exp => ⟨representable_rounded f (mant * b) exp, fun y hy => (rounded_nearest hy).1,
    roundShift_even_of_tie, ?_, ?_⟩, rfl, fun _ => rfl⟩
  · by_cases h : overflows f (mant * b) exp
    · exact .inr (fpRound_of_overflows h)
    · exact .inl (fpRound_of_not_overflows h)
  · refine Iff.trans ?_ (overflows_iff f (mant * b) exp)
    refine ⟨fun hinf => ?_, fpRound_of_overflows⟩
    by_contra h
    cases (fpRound_of_not_overflows h).symm.trans hinf

end Sys2Proof.Machine
end

/-! ## Proofs: the scaled value (43_data_assign.md R126 to R131) -/

section
namespace Sys2Proof.Machine

/-! ### Rounding to nearest even as a relation -/

theorem roundsTo_neg {f : FpFormat} {x y : ℚ} (h : roundsTo f x y) : roundsTo f (-x) (-y) := by
  obtain ⟨hrep, hnear, htie⟩ := h
  have hdist (z : ℚ) : |z - -x| = |-z - x| := by
    rw [← abs_neg]
    ring_nf
  refine ⟨by rwa [abs_neg], fun z hz => ?_, fun z hz hne heq => ?_⟩
  · rw [hdist, hdist, neg_neg]
    exact hnear (-z) (by rwa [abs_neg])
  · rw [hdist, hdist, neg_neg] at heq
    rw [abs_neg]
    exact htie (-z) (by rwa [abs_neg]) (fun h => hne (by rw [← h, neg_neg])) heq

/-- A number of the format is rounded to itself. -/
theorem roundsTo_self {f : FpFormat} {x : ℚ} (h : representable f |x|) : roundsTo f x x := by
  refine ⟨h, fun z _ => ?_, fun z _ hne heq => ?_⟩
  · rw [sub_self, abs_zero]
    exact abs_nonneg _
  · rw [sub_self, abs_zero, abs_eq_zero, sub_eq_zero] at heq
    exact absurd heq hne

theorem representable_zero (f : FpFormat) : representable f 0 :=
  ⟨0, fpMinExp f, Nat.two_pow_pos _, le_rfl, by simp [magnitude]⟩

/-- The exact value that is not negative is rounded to the rounded value. -/
theorem roundsTo_rounded {f : FpFormat} (hf : 1 ≤ f.fracBits) (m : Nat) (exp : Int) :
    roundsTo f (magnitude m exp) (rounded f m exp) := by
  have hx := magnitude_nonneg m exp
  have hy := rounded_nonneg f m exp
  have hfold (z : ℚ) : |(|z|) - magnitude m exp| ≤ |z - magnitude m exp| := by
    simpa [abs_of_nonneg hx] using abs_abs_sub_abs_le z (magnitude m exp)
  refine ⟨?_, fun z hz => (rounded_nearest hz).1.trans (hfold z), fun z hz hne heq => ?_⟩
  · rw [abs_of_nonneg hy]
    exact representable_rounded f m exp
  · rw [abs_of_nonneg hy]
    obtain ⟨hnear, htie⟩ := rounded_nearest (m := m) (exp := exp) hz
    refine evenSignificand_rounded hf (htie (le_antisymm ((hfold z).trans heq.le) hnear) fun habs => ?_)
    -- a number with the same magnitude is the negative one, which is farther from a value that is not negative
    have hzero := (rounded_nearest (m := m) (exp := exp) (representable_zero f)).1
    rcases (abs_eq hy).1 habs with rfl | rfl
    · exact hne rfl
    · rw [abs_of_nonpos (by linarith : -rounded f m exp - magnitude m exp ≤ 0)] at heq
      rw [abs_of_nonpos (by linarith : 0 - magnitude m exp ≤ 0)] at hzero
      have hr : rounded f m exp = 0 := by linarith
      exact hne (by rw [hr, neg_zero])

theorem roundsTo_signedMagnitude {f : FpFormat} (hf : 1 ≤ f.fracBits) (neg : Bool) (m : Nat) (exp : Int) :
    roundsTo f (signedMagnitude neg m exp) (signedMagnitude neg (roundedMant f m exp) (roundedExp f m exp)) := by
  have h := roundsTo_rounded hf m exp
  cases neg with
  | false => simpa [signedMagnitude, rounded] using h
  | true => simpa [signedMagnitude, rounded] using roundsTo_neg h

/-- Between two numbers of the format that have even significands another number of the format lies. -/
theorem exists_representable_between {f : FpFormat} {a b : ℚ} (ha : evenSignificand f a) (hb : evenSignificand f b)
    (hab : a < b) : ∃ z, representable f z ∧ a < z ∧ z < b := by
  obtain ⟨m, e, hm, hmin, hnormal, heven, rfl⟩ := ha
  obtain ⟨m', e', hm', hmin', -, heven', rfl⟩ := hb
  have hnext : m + 1 < 2 ^ (f.fracBits + 1) := by
    rw [Nat.pow_succ] at hm ⊢
    omega
  refine ⟨magnitude (m + 1) e, ⟨m + 1, e, hnext, hmin, rfl⟩, magnitude_lt_magnitude (Nat.lt_succ_self m) e, ?_⟩
  rcases le_or_gt e e' with hle | hlt
  · rw [magnitude_eq_multiple m' hle] at hab ⊢
    refine magnitude_lt_magnitude ?_ e
    have hjeven : m' * 2 ^ (e' - e).toNat % 2 = 0 := by rw [Nat.mul_mod, heven', Nat.zero_mul, Nat.zero_mod]
    have hj : m < m' * 2 ^ (e' - e).toNat := by
      by_contra hge
      exact absurd hab (magnitude_le_magnitude (not_lt.1 hge) e).not_gt
    omega
  · have hfull : 2 ^ f.fracBits ≤ m := hnormal.resolve_right (by omega)
    exact absurd (hab.trans (magnitude_lt_full hm' hlt)) (magnitude_le_magnitude hfull e).not_gt

/-- Between two numbers a value is rounded to no number of the format lies. -/
theorem roundsTo_none_between {f : FpFormat} {x y y' z : ℚ} (h : roundsTo f x y) (h' : roundsTo f x y') (hz : representable f |z|)
    (hyz : y < z) (hzy' : z < y') : False := by
  obtain ⟨-, hnear, -⟩ := h
  obtain ⟨-, hnear', -⟩ := h'
  rcases le_total z x with hle | hle
  · have hlt : |z - x| < |y - x| := by
      rw [abs_of_nonpos (by linarith), abs_of_nonpos (by linarith)]
      linarith
    exact absurd (hnear z hz) hlt.not_ge
  · have hlt : |z - x| < |y' - x| := by
      rw [abs_of_nonneg (by linarith), abs_of_nonneg (by linarith)]
      linarith
    exact absurd (hnear' z hz) hlt.not_ge

/-- Two numbers a value is rounded to are not in ascending order. -/
theorem roundsTo_not_lt {f : FpFormat} {x y y' : ℚ} (h : roundsTo f x y) (h' : roundsTo f x y') : ¬ y < y' := by
  intro hlt
  have hnone (z : ℚ) (hz : representable f |z|) (hyz : y < z) : ¬ z < y' := roundsTo_none_between h h' hz hyz
  obtain ⟨hrep, hnear, htie⟩ := h
  obtain ⟨hrep', hnear', htie'⟩ := h'
  have hdist : |y' - x| = |y - x| := le_antisymm (hnear' y hrep) (hnear y' hrep')
  have heven := htie y' hrep' hlt.ne' hdist
  have heven' := htie' y hrep hlt.ne hdist.symm
  rcases le_or_gt 0 y with hy | hy
  · rw [abs_of_nonneg hy] at heven
    rw [abs_of_nonneg (hy.trans hlt.le)] at heven'
    obtain ⟨z, hz, hyz, hzy'⟩ := exists_representable_between heven heven' hlt
    exact hnone z (by rwa [abs_of_nonneg (hy.trans hyz.le)]) hyz hzy'
  · rcases le_or_gt y' 0 with hy' | hy'
    · rw [abs_of_nonpos hy.le] at heven
      rw [abs_of_nonpos hy'] at heven'
      obtain ⟨z, hz, hyz, hzy'⟩ := exists_representable_between heven' heven (neg_lt_neg hlt)
      exact hnone (-z) (by rwa [abs_neg, abs_of_nonneg (by linarith)]) (by linarith) (by linarith)
    · exact hnone 0 (by rw [abs_zero]; exact representable_zero f) hy hy'

/-- A value is rounded to one number. -/
theorem roundsTo_unique {f : FpFormat} {x y y' : ℚ} (h : roundsTo f x y) (h' : roundsTo f x y') : y = y' :=
  le_antisymm (not_lt.1 (roundsTo_not_lt h' h)) (not_lt.1 (roundsTo_not_lt h h'))

/-! ### The scaled value -/

theorem two_pow_sixteen_le {f : FpFormat} (hf : formatOk f = true) : (65536 : ℚ) ≤ (2 : ℚ) ^ (fpBias f + 1) := by
  rw [formatOk, Bool.and_eq_true, decide_eq_true_iff, decide_eq_true_iff] at hf
  have hbias : (16 : Int) ≤ fpBias f + 1 := by
    have hpow : (2 : Int) ^ 4 ≤ 2 ^ (f.expBits - 1) := pow_le_pow_right₀ (by decide) (by omega)
    rw [fpBias]
    omega
  calc (65536 : ℚ)
    _ = (2 : ℚ) ^ (16 : Int) := by norm_num
    _ ≤ (2 : ℚ) ^ (fpBias f + 1) := zpow_le_zpow_right₀ one_le_two hbias

/-- A product that is too large for the format is out of range. -/
theorem not_overflows_of_inRange {f : FpFormat} (hf : formatOk f = true) {neg : Bool} {m : Nat} {exp : Int}
    (hlow : -1 < signedMagnitude neg (roundedMant f m exp) (roundedExp f m exp))
    (hhigh : signedMagnitude neg (roundedMant f m exp) (roundedExp f m exp) < 65536) : ¬ overflows f m exp := by
  rw [overflows_iff, not_le, rounded]
  refine lt_of_lt_of_le ?_ (two_pow_sixteen_le hf)
  cases neg <;> simp only [signedMagnitude, Bool.false_eq_true, if_true, if_false] at hlow hhigh <;> linarith

theorem signedMagnitude_mul (neg : Bool) (m b : Nat) (exp : Int) :
    signedMagnitude neg m exp * b = signedMagnitude neg (m * b) exp := by
  simp only [signedMagnitude, magnitude]
  push_cast
  ring

/-- The scaled value of a number, by what its product is rounded to. -/
theorem fpTrunc16_fpRound_iff {f : FpFormat} (hf : formatOk f = true) (neg : Bool) (m : Nat) (exp : Int) (w : Word) :
    fpTrunc16 (fpRound f neg m exp) = some w ↔
      ∃ y, roundsTo f (signedMagnitude neg m exp) y ∧ -1 < y ∧ y < 65536 ∧ (w.toNat : Int) = truncToward y := by
  have hfrac : 1 ≤ f.fracBits := by
    rw [formatOk, Bool.and_eq_true, decide_eq_true_iff] at hf
    omega
  have hround := roundsTo_signedMagnitude hfrac neg m exp
  constructor
  · intro h
    by_cases hover : overflows f m exp
    · rw [fpRound_of_overflows hover] at h
      cases h
    · rw [fpRound_of_not_overflows hover, fpTrunc16_finite_iff] at h
      exact ⟨_, hround, h⟩
  · rintro ⟨y, hy, hlow, hhigh, hw⟩
    obtain rfl := roundsTo_unique hround hy
    rw [fpRound_of_not_overflows (not_overflows_of_inRange hf hlow hhigh), fpTrunc16_finite_iff]
    exact ⟨hlow, hhigh, hw⟩

theorem scaleOf_eq_none {f : FpFormat} {val b : Nat} (h : fpValue (fpOfBits f val) = none) : scaleOf f val b = none := by
  rw [scaleOf]
  cases hx : fpOfBits f val with
  | nan => rfl
  | inf neg => rfl
  | finite neg m exp =>
    rw [hx] at h
    cases h

/-- The scaled value of an operand, by the number it stands for (43_data_assign.md R126). -/
theorem scaleOf_iff {f : FpFormat} (hf : formatOk f = true) (val b : Nat) (w : Word) :
    scaleOf f val b = some w ↔ ∃ x y, fpValue (fpOfBits f val) = some x ∧ roundsTo f (x * b) y ∧ -1 < y ∧ y < 65536 ∧
      (w.toNat : Int) = truncToward y := by
  cases hx : fpOfBits f val with
  | nan => simp [scaleOf, hx, fpMulNat, fpTrunc16, fpValue]
  | inf neg => simp [scaleOf, hx, fpMulNat, fpTrunc16, fpValue]
  | finite neg m exp =>
    rw [scaleOf, hx, fpMulNat, fpTrunc16_fpRound_iff hf, fpValue_finite, ← signedMagnitude_mul]
    simp

/-- Settles O28: `scaleOf_iff` and `scaleOf_eq_none`. -/
theorem scaleIsTheTruncatedProduct : Obligations.ScaleIsTheTruncatedProduct :=
  ⟨fun _ val b w hf => scaleOf_iff hf val b w, fun _ _ _ => scaleOf_eq_none, by decide, by decide⟩

/-! ### The values the source fixes (43_data_assign.md R131) -/

/-- An operand whose product is a number of the format in range is scaled to its integer part. -/
theorem scaleOf_of_representable {f : FpFormat} (hf : formatOk f = true) {val b : Nat} {x : ℚ} {w : Word}
    (hx : fpValue (fpOfBits f val) = some x) (hrep : representable f (x * b)) (hnonneg : 0 ≤ x * b) (hhigh : x * b < 65536)
    (hw : w.toNat = ⌊x * b⌋₊) : scaleOf f val b = some w := by
  have habs : |x * b| = x * b := abs_of_nonneg hnonneg
  refine (scaleOf_iff hf val b w).2 ⟨x, x * b, hx, roundsTo_self (habs.symm ▸ hrep), by linarith, hhigh, ?_⟩
  rw [truncToward_of_nonneg hnonneg, hw]

theorem fpMinExp_le_neg_one {f : FpFormat} (hf : formatOk f = true) : fpMinExp f ≤ -1 := by
  rw [formatOk, Bool.and_eq_true, decide_eq_true_iff, decide_eq_true_iff] at hf
  have hpow : (0 : Int) < 2 ^ (f.expBits - 1) := by positivity
  rw [fpMinExp, fpBias]
  omega

/-- A significand of sixteen bits with an exponent from −1 up is a number of every format that meets the constraints. -/
theorem representable_of_lt {f : FpFormat} (hf : formatOk f = true) {m : Nat} {e : Int} (hm : m < 65536) (he : -1 ≤ e) :
    representable f (magnitude m e) := by
  have hmin := fpMinExp_le_neg_one hf
  rw [formatOk, Bool.and_eq_true, decide_eq_true_iff] at hf
  have hpow : 2 ^ 16 ≤ 2 ^ (f.fracBits + 1) := Nat.pow_le_pow_right (by decide) (by omega)
  exact ⟨m, e, by omega, by omega, rfl⟩

theorem scaleOf_one {f : FpFormat} (hf : formatOk f = true) {val : Nat} (hx : fpValue (fpOfBits f val) = some 1) :
    scaleOf f val 65535 = some 65535 := by
  have hrep := representable_of_lt hf (m := 65535) (e := 0) (by decide) (by decide)
  have hvalue : magnitude 65535 0 = 1 * (65535 : Nat) := by norm_num [magnitude]
  refine scaleOf_of_representable hf hx (hvalue ▸ hrep) (by norm_num) (by norm_num) ?_
  rw [one_mul, Nat.floor_natCast]
  rfl

theorem scaleOf_zero {f : FpFormat} (hf : formatOk f = true) {val : Nat} (hx : fpValue (fpOfBits f val) = some 0) (b : Nat) :
    scaleOf f val b = some 0 := by
  have hvalue : (0 : ℚ) = 0 * (b : ℚ) := (zero_mul _).symm
  refine scaleOf_of_representable hf hx (hvalue ▸ representable_zero f) (by simp) (by norm_num) (by simp)

theorem scaleOf_half {f : FpFormat} (hf : formatOk f = true) {val : Nat} (hx : fpValue (fpOfBits f val) = some (1 / 2)) :
    scaleOf f val 4095 = some 2047 := by
  have hrep := representable_of_lt hf (m := 4095) (e := -1) (by decide) (by decide)
  have hvalue : magnitude 4095 (-1) = 1 / 2 * (4095 : Nat) := by norm_num [magnitude]
  refine scaleOf_of_representable hf hx (hvalue ▸ hrep) (by norm_num) (by norm_num) ?_
  rw [← hvalue, ← truncMagnitude_eq_floor]
  rfl

/-- DATA_SET stores a word in every channel if every value is scaled to it. -/
theorem exec_dataSet_all {s : State} (hidle : s.seq = .idle) (hs : s.chain.wf = true) (idx : Int) {vals : Values} {w : Word}
    (h : ∀ v ∈ vals.patterns, s.scaled vals.format v = some w) :
    ∃ t, exec (.dataSet idx vals) s = .next t ∧ ∀ k, k < 12 → t.gs (slotOf s.n idx) k = w := by
  refine ⟨_, exec_dataSet_idle hidle idx vals, fun k hk => ?_⟩
  have hv : vals.patterns[k]? = some (vals.patterns[k]'hk) := List.getElem?_eq_getElem hk
  rw [gs_assigned hs _ _ hv, h _ (List.getElem_mem hk), Option.getD_some]

/-- DATA_SET stores in a channel the word its value is scaled to. -/
theorem exec_dataSet_one {s : State} (hidle : s.seq = .idle) (hs : s.chain.wf = true) (idx : Int) {vals : Values} {k v : Nat}
    {w : Word} (hv : vals.patterns[k]? = some v) (h : s.scaled vals.format v = some w) :
    ∃ t, exec (.dataSet idx vals) s = .next t ∧ t.gs (slotOf s.n idx) k = w := by
  refine ⟨_, exec_dataSet_idle hidle idx vals, ?_⟩
  rw [gs_assigned hs _ _ hv, h, Option.getD_some]

/-- The scaled value at a depth, by the number of its setting. -/
theorem scaled_of_setting {s : State} {j b : Nat} (hj : settingOf s.params.layout .depth (s.cmd 0) = j)
    (hb : biases[j]? = some b) (f : FpFormat) (v : Nat) : s.scaled f v = scaleOf f v b := by
  rw [State.scaled, biasOf_of_setting hj hb]

/-- A positive bit pattern stands for the magnitude of its significand and exponent. -/
theorem fpValue_of_finite {f : FpFormat} {val m : Nat} {e : Int} {x : ℚ} (hbits : fpOfBits f val = .finite false m e)
    (hx : magnitude m e = x) : fpValue (fpOfBits f val) = some x := by
  rw [hbits, fpValue_finite, signedMagnitude, ← hx]
  simp

/-- Settles O32: the bias by the depth, the scaled value by the number. -/
theorem sourceFixedMagnitudesAreStored : Obligations.SourceFixedMagnitudesAreStored := by
  refine ⟨fun idx vals s hidle hs hf => ⟨fun hdepth hone => ?one, fun hdepth hzero => ?zero, fun hdepth k v hv hhalf => ?half⟩,
    fpValue_of_finite (m := 2 ^ 23) (e := -23) (by decide) (by norm_num [magnitude]),
    fpValue_of_finite (m := 2 ^ 52) (e := -52) (by decide) (by norm_num [magnitude]),
    fpValue_of_finite (m := 2 ^ 23) (e := -24) (by decide) (by norm_num [magnitude]),
    fpValue_of_finite (m := 2 ^ 52) (e := -53) (by decide) (by norm_num [magnitude])⟩
  case one =>
    exact exec_dataSet_all hidle hs idx fun v hv => (scaled_of_setting hdepth rfl _ v).trans (scaleOf_one hf (hone v hv))
  case zero =>
    exact exec_dataSet_all hidle hs idx fun v hv => (scaled_of_setting hdepth rfl _ v).trans (scaleOf_zero hf (hzero v hv) _)
  case half =>
    exact exec_dataSet_one hidle hs idx hv ((scaled_of_setting hdepth rfl _ v).trans (scaleOf_half hf hhalf))

/-- Settles O31: the two patterns stand for one number, whose product with the bias lies below 9089 by less than binary32 can
tell. -/
theorem formatsDifferOnAnInexactProduct : Obligations.FormatsDifferOnAnInexactProduct := by
  refine ⟨?_, by decide, by decide⟩
  have hsingle : fpValue (fpOfBits binary32 0x3F0E0638) = some (0x8E0638 / 2 ^ 24) :=
    fpValue_of_finite (m := 0x8E0638) (e := -24) (by decide) (by norm_num [magnitude])
  have hdouble : fpValue (fpOfBits binary64 0x3FE1C0C700000000) = some (0x8E0638 / 2 ^ 24) :=
    fpValue_of_finite (m := 0x11C0C700000000) (e := -53) (by decide) (by norm_num [magnitude])
  rw [hsingle, hdouble]

end Sys2Proof.Machine
end
